-- ==== Sys2Proof/Word.lean ====
section
/-! DEFINITION. The widths the spec names: bytes and byte strings (00_scope.md R7), the 16-bit checksum
word (R88) and the 32-bit wire fields (30_encoding.md R60). Sequence numbers in the block's registers are
natural numbers (10_state.md R12) and have no type of their own. -/

namespace Sys2Proof

/-- A byte is 8 bits (R7). -/
abbrev Byte := BitVec 8

/-- A byte string: the head is the first byte handed to or received from the transport (R7). -/
abbrev Bytes := List Byte

/-- The width of the checksum field (R63). -/
abbrev Word16 := BitVec 16

/-- The width of the sequence number, acknowledgment number and payload length fields (R61, R62, R65). -/
abbrev Word32 := BitVec 32

end Sys2Proof
end

