-- ==== Sys2Proof/Config.lean ====
section
/-! DEFINITION. What is fixed for one endpoint: the configuration registers (10_state.md R19 to R21), the
implementation parameters of 00_scope.md R6, and the numbers the wire format fixes. The spec leaves no value
open after an operation that goes on, so there is no opaque constant here. -/

namespace Sys2Proof

/-- `HEADER_LEN`: 4 + 4 + 2 + 1 + 4 bytes (R6, R60). -/
abbrev headerLen : Nat := 15

/-- `2^32`: the first number that no 32-bit wire field can carry (R12, R103). -/
abbrev fieldLimit : Nat := 4294967296

/-- An opaque duration: the block compares and passes it on, and never computes with it (R20).
DESIGN CHOICE: held as a natural number (log entry 18); safe, since no definition does arithmetic on it. -/
abbrev Duration := Nat

/-- The identity of an endpoint (R21). -/
inductive EndpointId where
  | a
  | b
  deriving DecidableEq, Repr

/-- What becomes of command code `0b11` (R73: "a model refuses it; an implementation ignores it").
DESIGN CHOICE (log entry 5): both readings are held, the normative one is `refuse`. -/
inductive ReservedPolicy where
  | refuse
  | ignore
  deriving DecidableEq, Repr

/-- The configuration taken at reset and at no other time (R210, R211), with the parameters of R6. -/
structure Config where
  /-- `WINDOW_SIZE` (R19). -/
  windowSize : Nat
  /-- `TIMER_INTERVAL` (R20). -/
  timerInterval : Duration
  /-- `ENDPOINT_ID` (R21); no rule reads it. -/
  endpointId : EndpointId
  /-- `MAX_PAYLOAD` (R6, R125). -/
  maxPayload : Nat
  /-- `PENDING_DEPTH` (R6, R225); `none` is the normative unbounded queue. -/
  pendingDepth : Option Nat
  /-- The reading of R73. -/
  reservedPolicy : ReservedPolicy
  deriving DecidableEq, Repr

/-- The normative model's configuration for given construction arguments (R6): `MAX_PAYLOAD = 2^32 - 1`,
`PENDING_DEPTH` unbounded, the reserved code refused. -/
def normativeConfig (windowSize : Nat) (timerInterval : Duration) (endpointId : EndpointId) : Config :=
  { windowSize, timerInterval, endpointId, maxPayload := fieldLimit - 1, pendingDepth := none,
    reservedPolicy := .refuse }

/-- A configuration the spec allows: `WINDOW_SIZE ≥ 1` (R19), and a `MAX_PAYLOAD` that `payload_length` can
carry (R6). -/
def configLegal (cfg : Config) : Bool :=
  decide (1 ≤ cfg.windowSize) && decide (cfg.maxPayload < fieldLimit)

/-- The configuration of `State.reset`. DESIGN CHOICE (log entry 3): `WINDOW_SIZE` and `TIMER_INTERVAL` are
OPEN (D14); 4 is the only window size the document uses (R19). -/
def defaultConfig : Config := normativeConfig 4 0 .a

end Sys2Proof
end

