-- ==== Sys2Proof/Syntax.lean ====
section
/-! DEFINITION. The operations the opcode table selects by bits (30_encoding.md R75): two packet kinds, three
commands and the reserved code, four actions; and the records they carry. -/

namespace Sys2Proof

/-- A decoded packet, field for field (41_codec.md R101). -/
structure Packet where
  sequenceNumber : Word32
  acknowledgmentNumber : Word32
  checksum : Word16
  isAck : Bool
  payloadLength : Word32
  payload : Bytes
  deriving DecidableEq, Repr

/-- One constructor per row of `spec/opcode_table.json`. -/
inductive Instr where
  /-- PKT_DATA: a data packet on which DECODE returned `Ok` (R146, R148, R149). -/
  | pktData (p : Packet)
  /-- PKT_ACK: an ACK packet on which DECODE returned `Ok` (R150). -/
  | pktAck (p : Packet)
  /-- SUBMIT, `op = 0b00` (R72, R161). -/
  | submit (payload : Bytes)
  /-- RX, `op = 0b01` (R72, R162). -/
  | rx (bytes : Bytes)
  /-- TIMEOUT, `op = 0b10` (R72, R163). -/
  | timeout
  /-- The reserved command code, `op = 0b11` (R73), with whatever byte string stands beside it. -/
  | cmdReserved (operand : Bytes)
  /-- TRANSMIT, `act = 0b00` (R74, R166). -/
  | transmit (bytes : Bytes)
  /-- DELIVER, `act = 0b01` (R74, R167). -/
  | deliver (payload : Bytes)
  /-- START_TIMER, `act = 0b10` (R74, R168). -/
  | startTimer (duration : Duration)
  /-- STOP_TIMER, `act = 0b11` (R74, R169). -/
  | stopTimer
  deriving DecidableEq, Repr

end Sys2Proof
end

