-- ==== Sys2Proof/WellFormed.lean ====
section
/-! DEFINITION. When a term of `Instr` is an operation the spec's encodings can say. -/

namespace Sys2Proof

/-- R101: `len(payload) = payload_length`. -/
def packetLengthAgrees (p : Packet) : Bool :=
  p.payload.length == p.payloadLength.toNat

/-- PKT_DATA carries `is_ack` false, PKT_ACK true (R68, R71), each with a payload of the declared length
(R101); SUBMIT's payload and DELIVER's are at most what `payload_length` can carry (R72, R6). RX takes a byte
string of any length and content (R162), and the reserved code any byte string beside it (R73). -/
def Instr.wellFormed : Instr → Bool
  | .pktData p => !p.isAck && packetLengthAgrees p
  | .pktAck p => p.isAck && packetLengthAgrees p
  | .submit payload => decide (payload.length < fieldLimit)
  | .rx _ => true
  | .timeout => true
  | .cmdReserved _ => true
  | .transmit bytes => decide (headerLen ≤ bytes.length)
  | .deliver payload => decide (payload.length < fieldLimit)
  | .startTimer _ => true
  | .stopTimer => true

end Sys2Proof
end

