-- ==== Sys2Proof/Decode.lean ====
section
/-! DEFINITION. The encodings of 30_encoding.md read and written: byte order, the 15-byte packet header, the
command port, the action port, and the numbering of `spec/opcode_table.json`. -/

namespace Sys2Proof

/-! ## Byte order (R7, R42) -/

/-- `be16(v) = [v[15:8], v[7:0]]` (R7). -/
def be16 (v : Word16) : Bytes :=
  [v.extractLsb' 8 8, v.extractLsb' 0 8]

/-- `be32(v) = [v[31:24], v[23:16], v[15:8], v[7:0]]` (R7). -/
def be32 (v : Word32) : Bytes :=
  [v.extractLsb' 24 8, v.extractLsb' 16 8, v.extractLsb' 8 8, v.extractLsb' 0 8]

/-- Byte `i` of a byte string. Every reader below asks only for offsets the string has. -/
def byteAt (B : Bytes) (i : Nat) : Byte := B.getD i 0

/-- `u16be(B, i) = B[i]·256 + B[i+1]` (R7). -/
def u16be (B : Bytes) (i : Nat) : Word16 := byteAt B i ++ byteAt B (i + 1)

/-- `u32be(B, i)`: four bytes, most significant first (R7). -/
def u32be (B : Bytes) (i : Nat) : Word32 :=
  byteAt B i ++ byteAt B (i + 1) ++ byteAt B (i + 2) ++ byteAt B (i + 3)

/-! ## The packet byte string (R60 to R66) -/

/-- The byte `is_ack` is written as: 0x01 for true, 0x00 for false (R64). -/
def ackByte (isAck : Bool) : Byte := if isAck then 1 else 0

/-- The header of R60 followed by the payload, with the checksum field given. -/
def packetBytes (seq ack : Word32) (checksum : Word16) (isAck : Bool) (payload : Bytes) : Bytes :=
  be32 seq ++ be32 ack ++ be16 checksum ++ [ackByte isAck] ++ be32 (BitVec.ofNat 32 payload.length) ++ payload

/-- The fields of a received byte string of at least 15 bytes (R61 to R66): every `is_ack` byte but 0x00 reads
as true (R64), and bytes beyond `15 + payload_length` are no part of the payload (R112). -/
def packetFields (B : Bytes) : Packet :=
  { sequenceNumber := u32be B 0
    acknowledgmentNumber := u32be B 4
    checksum := u16be B 8
    isAck := byteAt B 10 != 0
    payloadLength := u32be B 11
    payload := (B.drop headerLen).take (u32be B 11).toNat }

/-- The two tests of length (R108, R109), on natural numbers: the sum `15 + L` does not wrap. -/
def isTruncated (B : Bytes) : Bool :=
  decide (B.length < headerLen) || decide (B.length < headerLen + (u32be B 11).toNat)

/-- A packet parsed without looking at its checksum; `none` is `Truncated` (R107: truncation is tested before
the checksum). -/
def parsePacket (B : Bytes) : Option Packet :=
  if isTruncated B then none else some (packetFields B)

/-- The two packet rows: PKT_DATA is tested first, every other header is PKT_ACK (R71). -/
def packetInstr (p : Packet) : Instr :=
  if p.isAck then .pktAck p else .pktData p

/-! ## Port words -/

/-- What an encoded interface carries: the command port, a code and a byte string (R72); a packet byte string (R60);
the action port, a code, a byte string and a duration (R74). A code reads the operands it has and no other (log entry
13), so every code with every operand is a word of its port. The environment presents commands only; the other two are
the formats PKT and ACT of the opcode table (log entry 6). -/
inductive PortWord where
  | command (op : BitVec 2) (operand : Bytes)
  | packet (bytes : Bytes)
  | action (act : BitVec 2) (bytes : Bytes) (duration : Duration)
  deriving DecidableEq, Repr

/-- The one way a port word can be no instruction; the step then handles the corrupt byte string (log entry 13). -/
inductive DecodeError where
  /-- A packet word shorter than its own header declares (R108, R109). -/
  | truncatedPacket
  deriving DecidableEq, Repr

/-- The command port (R72, R73). -/
def decodeCommand (op : BitVec 2) (operand : Bytes) : Instr :=
  if op = 0b00#2 then .submit operand
  else if op = 0b01#2 then .rx operand
  else if op = 0b10#2 then .timeout
  else .cmdReserved operand

/-- The action port (R74). -/
def decodeAction (act : BitVec 2) (bytes : Bytes) (duration : Duration) : Instr :=
  if act = 0b00#2 then .transmit bytes
  else if act = 0b01#2 then .deliver bytes
  else if act = 0b10#2 then .startTimer duration
  else .stopTimer

/-- The packet rows (R71): a byte string that is not truncated is PKT_DATA or PKT_ACK by its `is_ack` byte. -/
def decodePacketWord (bytes : Bytes) : Except DecodeError Instr :=
  match parsePacket bytes with
  | none => .error .truncatedPacket
  | some p => .ok (packetInstr p)

/-- The decoder, total on every port word. -/
def decode : PortWord → Except DecodeError Instr
  | .command op operand => .ok (decodeCommand op operand)
  | .packet bytes => decodePacketWord bytes
  | .action act bytes duration => .ok (decodeAction act bytes duration)

/-- The encoder, from the same tables (R60, R72, R74); an operand that the code does not have is written as zero. -/
def encode : Instr → PortWord
  | .pktData p => .packet (packetBytes p.sequenceNumber p.acknowledgmentNumber p.checksum false p.payload)
  | .pktAck p => .packet (packetBytes p.sequenceNumber p.acknowledgmentNumber p.checksum true p.payload)
  | .submit payload => .command 0b00#2 payload
  | .rx bytes => .command 0b01#2 bytes
  | .timeout => .command 0b10#2 []
  | .cmdReserved operand => .command 0b11#2 operand
  | .transmit bytes => .action 0b00#2 bytes 0
  | .deliver payload => .action 0b01#2 payload 0
  | .startTimer d => .action 0b10#2 [] d
  | .stopTimer => .action 0b11#2 [] 0

/-! ## The opcode table's numbering (log entry 8) -/

/-- The 15 header bytes of the 120-bit value `H`: byte `k` is `H[119 - 8k : 112 - 8k]` (R71). -/
def headerBytesOf (w : Nat) : Bytes :=
  (List.range headerLen).map fun k => BitVec.ofNat 8 (w >>> (112 - 8 * k))

/-- The port word of an opcode-table word of `nbits` bits: 120 bits are a packet header with nothing after it
(the payload is above the table's bits, hence empty); up to 8 bits are a command code in bits 1..0, all other
bits zero and the operand empty. The table gives the ACT rows the same bits as CMD rows; a fetched word is a command. -/
def tableWord (nbits w : Nat) : Option PortWord :=
  if nbits = 120 then
    if w < 2 ^ 120 then some (.packet (headerBytesOf w)) else none
  else if nbits ≤ 8 then
    if w < 4 then some (.command (BitVec.ofNat 2 w) []) else none
  else none

/-- The instruction the decoder reads from an opcode-table word. -/
def decodeTableWord (nbits w : Nat) : Option Instr :=
  match tableWord nbits w with
  | none => none
  | some word =>
    match decode word with
    | .ok i => some i
    | .error _ => none

end Sys2Proof
end

