-- ==== Sys2Proof/Machine/Checksum.lean ====
section
/-! DEFINITION. The checksum unit (40_checksum.md): pure functions of a byte string (R85). -/

namespace Sys2Proof.Machine

/-- WORDS (R86): 16-bit big-endian words; an odd last byte is the high byte of its word, the pad byte 0x00 its
low byte. -/
def words : Bytes → List Nat
  | [] => []
  | [b] => [b.toNat * 256]
  | b₀ :: b₁ :: rest => (b₀.toNat * 256 + b₁.toNat) :: words rest

/-- The exact sum of the words, a natural number that does not wrap (R88, R89). -/
def wordSum (B : Bytes) : Nat := (words B).sum

/-- FOLD's loop (R87), with a bound on the number of passes so that the recursion is structural. -/
def foldPasses : Nat → Nat → Nat
  | 0, x => x
  | n + 1, x => if x >>> 16 = 0 then x else foldPasses n ((x &&& 0xFFFF) + (x >>> 16))

/-- FOLD (R87): end-around carry. Each pass makes a number of `0x10000` or more strictly smaller, so `x` passes
are enough (`fold_lt`). -/
def fold (x : Nat) : Nat := foldPasses x x

/-- CHECKSUM (R88): the one's complement of the folded word sum. -/
def checksum (B : Bytes) : Word16 := ~~~(BitVec.ofNat 16 (fold (wordSum B)))

/-- The incremental form of R91: a 16-bit accumulator, one word at a time with end-around carry. -/
def foldIncremental (ws : List Nat) : Nat := ws.foldl (fun acc w => fold (acc + w)) 0

end Sys2Proof.Machine
end

