-- ==== Sys2Proof/Machine/Codec.lean ====
section
/-! DEFINITION. The packet codec (41_codec.md): ENCODE, DECODE and VERIFY, pure functions (R100). -/

namespace Sys2Proof.Machine

/-- The two errors of the block (60_exceptions.md R180). -/
inductive CorruptionError where
  | truncated
  | checksumMismatch
  deriving DecidableEq, Repr

/-- The result of DECODE: `Ok(p)` or `Err(e)` (R8, R106). -/
inductive DecodeResult where
  | ok (p : Packet)
  | err (e : CorruptionError)
  deriving DecidableEq, Repr

/-- The codes of R180: 0 is `Ok`, 1 `Truncated`, 2 `ChecksumMismatch`. They appear on no port (R181). -/
def resultCode : DecodeResult → Nat
  | .ok _ => 0
  | .err .truncated => 1
  | .err .checksumMismatch => 2

/-- A byte string with the checksum field, offsets 8 and 9, set to zero (R93, R110). -/
def zeroChecksum (B : Bytes) : Bytes := B.take 8 ++ [0, 0] ++ B.drop 10

/-- ENCODE (R102): the checksum is computed over the packet with the field zeroed. -/
def encodePacket (seq ack : Word32) (isAck : Bool) (payload : Bytes) : Bytes :=
  packetBytes seq ack (checksum (packetBytes seq ack 0 isAck payload)) isAck payload

/-- VERIFY (R110): recompute over all received bytes with the field zeroed, and compare. -/
def verify (B : Bytes) : Bool := checksum (zeroChecksum B) == u16be B 8

/-- DECODE (R106): truncation is tested before the checksum (R107). -/
def decodePacket (B : Bytes) : DecodeResult :=
  match parsePacket B with
  | none => .err .truncated
  | some p => if verify B then .ok p else .err .checksumMismatch

/-- The document's other accept test, the whole packet summed as received (R93, R110); not normative, kept to
be compared with VERIFY. -/
def wholePacketAccepts (B : Bytes) : Bool := checksum B == 0

end Sys2Proof.Machine
end

