-- ==== Sys2Proof/Machine/State.lean ====
section
/-! DEFINITION. What one endpoint holds (10_state.md R10), why a step may stop, and the state after reset
(R31). -/

namespace Sys2Proof.Machine

/-- What the block asks of the environment (44_endpoint.md R165 to R169). -/
inductive Action where
  | transmit (bytes : Bytes)
  | deliver (payload : Bytes)
  | startTimer (duration : Duration)
  | stopTimer
  deriving DecidableEq, Repr

/-- What the environment queues for the block: a port word (R72), or reset with a configuration (R210). -/
inductive Input where
  | word (word : PortWord)
  | reset (cfg : Config)
  deriving DecidableEq, Repr

/-- The block has no fault, no halted and no locked-up state (60_exceptions.md R187: "There is no fatal error
path in the core"; 93_implementation_defined.md: `fault` and `stuck` are "not used by this block"), so this type
has no constructor: no step can fault (log entry 17, safe). -/
inductive Fault where
  deriving DecidableEq, Repr

/-- Why the model has no step. Each is safe: the model stops where a machine might go on. -/
inductive Refusal where
  /-- Raised by an arm of `exec` whose instruction has no meaning yet; no arm raises it. Safe. -/
  | notModelled (mnemonic : String)
  /-- R73 `refuse(reserved_command)`: command code `0b11` under the normative reading. Raised by CMD_RESERVED.
  Safe. -/
  | reservedCommand
  /-- R124 `refuse(sequence_numbers_exhausted)`: a data packet is to be sent and `next_seq ≥ 2^32`. Raised by
  SEND_NEW, so by SUBMIT, PKT_ACK and RX. Safe. -/
  | sequenceNumbersExhausted
  /-- R125 `refuse(payload_too_long)`: a payload longer than `MAX_PAYLOAD`. Raised by SUBMIT and by SEND_NEW, so
  also by PKT_ACK and RX. Safe. -/
  | payloadTooLong
  /-- U4, R225: SUBMIT finds the window full and a finite `pending` queue full. Raised by SUBMIT. Safe. -/
  | pendingOverflow
  /-- U8, R19: reset with `WINDOW_SIZE = 0`. Raised by a reset input. Safe. -/
  | windowSizeZero
  /-- R6: reset with a `MAX_PAYLOAD` that `payload_length` cannot carry (log entry 4). Raised by a reset input.
  Safe. -/
  | maxPayloadTooLarge
  deriving DecidableEq, Repr

/-- The state of one endpoint (R10), with the environment's queued inputs and the action trace of the current
command. -/
structure State where
  /-- `base`: the lowest unacknowledged sequence number (R11). -/
  base : Nat
  /-- `next_seq`: the next sequence number to assign (R13). -/
  nextSeq : Nat
  /-- `in_flight`: sequence number to sent packet bytes, keys strictly rising (R22). -/
  inFlight : List (Nat × Bytes)
  /-- `pending`: payloads waiting for the window, front first (R25). -/
  pending : List Bytes
  /-- `expected_seq`: the next sequence number the receiver will accept (R16). -/
  expectedSeq : Nat
  /-- `last_ack_sent` (R17). -/
  lastAckSent : Bytes
  /-- `timer_armed`: the mirror of the external timer (R18). -/
  timerArmed : Bool
  /-- The configuration registers (R19 to R21) and parameters (R6). -/
  config : Config
  /-- The inputs not yet presented, oldest first (log entry 1). -/
  inbox : List Input
  /-- The action trace of the current command, in emission order (R165; log entry 2). -/
  trace : List Action
  deriving DecidableEq, Repr

/-- `ENCODE(0, 0, true, [])`, byte for byte as R17 and R31 write it. -/
def resetAck : Bytes :=
  [0x00, 0x00, 0x00, 0x00, 0x00, 0x00, 0x00, 0x00, 0xFE, 0xFF, 0x01, 0x00, 0x00, 0x00, 0x00]

/-- The complete reset state for given construction arguments (R31, R210). -/
def State.resetWith (cfg : Config) : State :=
  { base := 1, nextSeq := 1, inFlight := [], pending := [], expectedSeq := 1, lastAckSent := resetAck,
    timerArmed := false, config := cfg, inbox := [], trace := [] }

/-- The machine right after reset. DESIGN CHOICE (log entry 3): the construction arguments are those of
`defaultConfig`. -/
def State.reset : State := State.resetWith defaultConfig

end Sys2Proof.Machine
end

