-- ==== Sys2Proof/Machine/Ops.lean ====
section
/-! DEFINITION. The named operations over the buffers, the action port and the input queue, and the handling of
a corruption error. -/

namespace Sys2Proof.Machine

/-- The outcome of one transition of the endpoint. -/
abbrev Result := Host.Outcome State Fault Refusal

/-- Sequence two parts of one command: the second sees what the first wrote (20_memory.md R51); a refusal of
either is the refusal of the whole command, which has then no effect (R50; log entry 15). -/
def andThen (r : Result) (f : State → Result) : Result :=
  match r with
  | .next s => f s
  | .fault e => .fault e
  | .refused e => .refused e

/-! ## The in-flight store (10_state.md R22) -/

/-- The canonical form of the store: keys strictly rising, so one entry a key. -/
def storeWf (m : List (Nat × Bytes)) : Bool := decide ((m.map Prod.fst).Pairwise (· < ·))

/-- `in_flight[s]`; an absent key reads as none. -/
def storeRead (m : List (Nat × Bytes)) (k : Nat) : Option Bytes :=
  match m with
  | [] => none
  | (k', v) :: rest => if k = k' then some v else storeRead rest k

/-- `in_flight[s] <- v`. -/
def storeInsert (m : List (Nat × Bytes)) (k : Nat) (v : Bytes) : List (Nat × Bytes) :=
  match m with
  | [] => [(k, v)]
  | (k', v') :: rest =>
    if k < k' then (k, v) :: (k', v') :: rest
    else if k = k' then (k, v) :: rest
    else (k', v') :: storeInsert rest k v

/-- `for s in lo .. hi: remove in_flight[s]` (R132). -/
def storeRemoveRange (m : List (Nat × Bytes)) (lo hi : Nat) : List (Nat × Bytes) :=
  m.filter fun e => !(decide (lo ≤ e.1) && decide (e.1 ≤ hi))

/-! ## The pending queue (10_state.md R25) -/

/-- Write `pending`. -/
def setPending (q : List Bytes) (s : State) : State := { s with pending := q }

/-! ## The action port (44_endpoint.md R165) -/

/-- `emit ACT(args)`: append one action to the trace of the current command (R8, R165). -/
def emit (a : Action) (s : State) : State := { s with trace := s.trace ++ [a] }

/-! ## A corruption error (60_exceptions.md R184)

The block's only exception entry. Nothing is saved, no mode and no mask changes and control goes nowhere, so
there is no return from it either (R186): the command emits one TRANSMIT of the stored ACK and ends. -/

/-- What a failed DECODE does, whichever of the two errors it is (R147, R184). -/
def takeCorruption (_ : CorruptionError) (s : State) : State := emit (.transmit s.lastAckSent) s

/-! ## Reset (70_reset_and_hazards.md R210 to R212) -/

/-- Reset with a configuration: every field of R31, nothing of the previous life, no action. What the environment
has queued behind the reset is its own and stays (log entry 14). `WINDOW_SIZE = 0` is refused (U8). -/
def applyReset (cfg : Config) (s : State) : Result :=
  if cfg.windowSize = 0 then .refused .windowSizeZero
  else if fieldLimit ≤ cfg.maxPayload then .refused .maxPayloadTooLarge
  else .next { State.resetWith cfg with inbox := s.inbox }

/-! ## The command port (R160) -/

/-- What the next step finds at the head of the input queue. `ready` is the state with that input taken from the
queue and the trace of the new command empty. -/
inductive Fetched where
  | idle
  | reset (cfg : Config) (ready : State)
  | run (i : Instr) (ready : State)
  | corrupt (error : CorruptionError) (ready : State)
  deriving DecidableEq, Repr

/-- The state in which a command begins: its input is taken, its trace is empty (R165). -/
def beginCommand (rest : List Input) (s : State) : State := { s with inbox := rest, trace := [] }

/-- Present the oldest queued input (R160: "one at a time"). A packet word is a received byte string: "either a packet
(`Ok`) or corrupt", "none traps" (R70), so one that is truncated is handled as the corruption it is. -/
def fetch (s : State) : Fetched :=
  match s.inbox with
  | [] => .idle
  | .reset cfg :: rest => .reset cfg (beginCommand rest s)
  | .word w :: rest =>
    match decode w with
    | .ok i => .run i (beginCommand rest s)
    | .error .truncatedPacket => .corrupt .truncated (beginCommand rest s)

/-- With no input the block is idle with its state held (R197). -/
def idle (s : State) : Result := .next s

/-- Put a word where the next step fetches: at the head of the input queue. -/
def placeWord (w : PortWord) (s : State) : State := { s with inbox := .word w :: s.inbox }

end Sys2Proof.Machine
end

