-- ==== Sys2Proof/Machine/Flags.lean ====
section
/-! DEFINITION. The block's one flag, `timer_armed` (10_state.md R18), and the conditions the rules compute from
registers each time they need them (R15, R23). -/

namespace Sys2Proof.Machine

/-- `next_seq - base < WINDOW_SIZE`: the control state IDLE_WINDOW_OPEN (R15, R121). DEDUCED (log entry 11): the
difference is that of natural numbers; it is exact in every reached state, where `base ≤ next_seq` (R14). -/
def windowOpen (s : State) : Bool := decide (s.nextSeq - s.base < s.config.windowSize)

/-- `base = next_seq`: nothing outstanding (R23, R134). -/
def nothingOutstanding (s : State) : Bool := s.base == s.nextSeq

/-- An ACK number that is progress beyond `base` and was sent (R131). -/
def acceptsAck (s : State) (a : Nat) : Bool := decide (s.base ≤ a) && decide (a < s.nextSeq)

/-- START_TIMER (R168): emit it and set the mirror bit. -/
def armTimer (d : Duration) (s : State) : State :=
  { s with trace := s.trace ++ [.startTimer d], timerArmed := true }

/-- STOP_TIMER (R169): emit it and clear the mirror bit. -/
def disarmTimer (s : State) : State :=
  { s with trace := s.trace ++ [.stopTimer], timerArmed := false }

/-- START_TIMER with the endpoint's own interval, the only one the block's rules use (R20, R168). -/
def restartTimer (s : State) : State := armTimer s.config.timerInterval s

/-- The timer that fired is no longer running (R18, R136): the bit is cleared without an action. -/
def timerFired (s : State) : State := { s with timerArmed := false }

/-- Room in a finite `pending` queue; the normative queue always has room (R25, R225). -/
def pendingHasRoom (s : State) : Bool :=
  match s.config.pendingDepth with
  | none => true
  | some depth => decide (s.pending.length < depth)

end Sys2Proof.Machine
end

