-- ==== Sys2Proof/Machine/Ports.lean ====
section
/-! DEFINITION. The four actions (44_endpoint.md R166 to R169) as operations of the block, and the reserved
command code (30_encoding.md R73). -/

namespace Sys2Proof.Machine

/-- TRANSMIT (R166). -/
def execTransmit (bytes : Bytes) (s : State) : Result := .next (emit (.transmit bytes) s)

/-- DELIVER (R167). -/
def execDeliver (payload : Bytes) (s : State) : Result := .next (emit (.deliver payload) s)

/-- START_TIMER (R168). -/
def execStartTimer (d : Duration) (s : State) : Result := .next (armTimer d s)

/-- STOP_TIMER (R169). -/
def execStopTimer (s : State) : Result := .next (disarmTimer s)

/-- Command code `0b11` (R73): "a model refuses it (`refuse(reserved_command)`); an implementation ignores it,
changing no state and emitting no action" (log entry 5). -/
def execCmdReserved (_ : Bytes) (s : State) : Result :=
  match s.config.reservedPolicy with
  | .refuse => .refused .reservedCommand
  | .ignore => .next s

end Sys2Proof.Machine
end

