-- ==== Sys2Proof/Machine/Operands.lean ====
section
/-! DEFINITION. The operands the rules name: the canonical packets of 30_encoding.md R68, the numbers ON_PACKET
and ON_ACK read from a packet, and the reads of in-flight entries. -/

namespace Sys2Proof.Machine

/-- `DATA(s, p) = ENCODE(s, 0, false, p)` (R68, R104): the acknowledgment field of a data packet is 0 (R62). -/
def dataPacket (seq : Nat) (payload : Bytes) : Bytes :=
  encodePacket (BitVec.ofNat 32 seq) 0 false payload

/-- `ACK(a) = ENCODE(0, a, true, [])` (R68, R104). -/
def ackPacket (a : Word32) : Bytes := encodePacket 0 a true []

/-- The sequence number ON_PACKET compares with `expected_seq`: a natural number (R12, R146). -/
def seqOperand (p : Packet) : Nat := p.sequenceNumber.toNat

/-- The number ON_PACKET forwards to ON_ACK (R150). -/
def ackOperand (p : Packet) : Nat := p.acknowledgmentNumber.toNat

/-- The entries of keys `lo .. lo + n - 1` of the store, ascending; a key that is absent contributes nothing
(log entry 10; no key is absent in a reached state, R23). -/
def storedRange (m : List (Nat × Bytes)) (lo n : Nat) : List Bytes :=
  (List.range' lo n).filterMap (storeRead m)

end Sys2Proof.Machine
end

