-- ==== Sys2Proof/Machine/Sender.lean ====
section
/-! DEFINITION. The sender (42_sender.md): SEND_NEW, ON_ACK, ON_TIMEOUT, and the commands SUBMIT and TIMEOUT. -/

namespace Sys2Proof.Machine

/-- The part of SEND_NEW after its two tests (R123): store the new packet under `next_seq`, transmit it, start
the timer if nothing was in flight, count. -/
def sendPacket (payload : Bytes) (s : State) : State :=
  let pkt := dataPacket s.nextSeq payload
  let sent := emit (.transmit pkt) { s with inFlight := storeInsert s.inFlight s.nextSeq pkt }
  let timed := if nothingOutstanding s then restartTimer sent else sent
  { timed with nextSeq := s.nextSeq + 1 }

/-- SEND_NEW (R123), with its refusals R124 and R125 in the order the rule tests them. -/
def sendNew (payload : Bytes) (s : State) : Result :=
  if fieldLimit ≤ s.nextSeq then .refused .sequenceNumbersExhausted
  else if s.config.maxPayload < payload.length then .refused .payloadTooLong
  else .next (sendPacket payload s)

/-- `push_back(pending, payload)` (R122). A payload longer than `MAX_PAYLOAD` has no meaning whether the window
is open or full (R125, U5; log entry 9), and a finite queue does not overflow (R225, U4). -/
def bufferPayload (payload : Bytes) (s : State) : Result :=
  if s.config.maxPayload < payload.length then .refused .payloadTooLong
  else if pendingHasRoom s then .next (setPending (s.pending ++ [payload]) s)
  else .refused .pendingOverflow

/-- SUBMIT (R121). -/
def submit (payload : Bytes) (s : State) : Result :=
  if windowOpen s then sendNew payload s else bufferPayload payload s

/-- The drain of R133: `queue` is what is left of `pending`; each payload leaves the front before SEND_NEW. -/
def drainQueue (queue : List Bytes) (s : State) : Result :=
  match queue with
  | [] => .next (setPending [] s)
  | payload :: rest =>
    if windowOpen s then andThen (sendNew payload (setPending rest s)) (drainQueue rest)
    else .next (setPending (payload :: rest) s)

/-- `while not empty(pending) and next_seq - base < WINDOW_SIZE` (R133). -/
def drain (s : State) : Result := drainQueue s.pending s

/-- Advance (R132): drop the acknowledged entries and move `base` past them. -/
def advanceBase (a : Nat) (s : State) : State :=
  { s with inFlight := storeRemoveRange s.inFlight s.base a, base := a + 1 }

/-- The timer action that closes an accepted ACK (R134). -/
def closeAck (s : State) : State := if nothingOutstanding s then disarmTimer s else restartTimer s

/-- ON_ACK (R130): an ACK that is no progress, or acknowledges what was never sent, is ignored (R131). -/
def onAck (a : Nat) (s : State) : Result :=
  if acceptsAck s a then andThen (drain (advanceBase a s)) fun t => .next (closeAck t)
  else .next s

/-- One TRANSMIT for each stored packet of `base .. next_seq - 1`, ascending (R136): the stored bytes, not
re-encoded (R47). -/
def resendInFlight (s : State) : State :=
  { s with trace := s.trace ++ (storedRange s.inFlight s.base (s.nextSeq - s.base)).map .transmit }

/-- ON_TIMEOUT (R136 to R138). -/
def onTimeout (s : State) : State :=
  let fired := timerFired s
  if nothingOutstanding fired then fired else restartTimer (resendInFlight fired)

/-- The SUBMIT command (R161). -/
def execSubmit (payload : Bytes) (s : State) : Result := submit payload s

/-- The TIMEOUT command (R163). -/
def execTimeout (s : State) : Result := .next (onTimeout s)

end Sys2Proof.Machine
end

