-- ==== Sys2Proof/Machine/Receiver.lean ====
section
/-! DEFINITION. The receiver (43_receiver.md): ON_PACKET's branches, the two packet rows, and the RX command
(44_endpoint.md R162). -/

namespace Sys2Proof.Machine

/-- Data in order (R148): DELIVER, then the new ACK stored and transmitted, then count. -/
def acceptData (p : Packet) (s : State) : State :=
  let ack := ackPacket p.sequenceNumber
  let answered := emit (.transmit ack) { emit (.deliver p.payload) s with lastAckSent := ack }
  { answered with expectedSeq := s.expectedSeq + 1 }

/-- Data not in order (R149): the stored ACK again, nothing else. -/
def repeatAck (s : State) : State := emit (.transmit s.lastAckSent) s

/-- ON_PACKET's branch for a data packet (R146). -/
def onData (p : Packet) (s : State) : State :=
  if seqOperand p = s.expectedSeq then acceptData p s else repeatAck s

/-- PKT_DATA (R146, R148, R149): the packet is one on which DECODE returned `Ok` (log entry 7). -/
def execPktData (p : Packet) (s : State) : Result := .next (onData p s)

/-- PKT_ACK (R150): only the acknowledgment number is forwarded. -/
def execPktAck (p : Packet) (s : State) : Result := onAck (ackOperand p) s

/-- ON_PACKET (R146). -/
def onPacket (r : DecodeResult) (s : State) : Result :=
  match r with
  | .err e => .next (takeCorruption e s)
  | .ok p => if p.isAck then onAck (ackOperand p) s else .next (onData p s)

/-- The RX command (R162): DECODE, then ON_PACKET. -/
def execRx (bytes : Bytes) (s : State) : Result := onPacket (decodePacket bytes) s

end Sys2Proof.Machine
end

