-- ==== Sys2Proof/Machine/Dispatch.lean ====
section
/-! DEFINITION. The meaning of each instruction, one arm per constructor. -/

namespace Sys2Proof.Machine

def exec (i : Instr) (s : State) : Host.Outcome State Fault Refusal :=
  match i with
  | .pktData p => Sys2Proof.Machine.execPktData p s
  | .pktAck p => Sys2Proof.Machine.execPktAck p s
  | .submit payload => Sys2Proof.Machine.execSubmit payload s
  | .rx bytes => Sys2Proof.Machine.execRx bytes s
  | .timeout => Sys2Proof.Machine.execTimeout s
  | .cmdReserved operand => Sys2Proof.Machine.execCmdReserved operand s
  | .transmit bytes => Sys2Proof.Machine.execTransmit bytes s
  | .deliver payload => Sys2Proof.Machine.execDeliver payload s
  | .startTimer d => Sys2Proof.Machine.execStartTimer d s
  | .stopTimer => Sys2Proof.Machine.execStopTimer s

end Sys2Proof.Machine
end

