-- ==== Sys2Proof/Machine/Step.lean ====
section
/-! DEFINITION. One step: the oldest queued input, taken whole (44_endpoint.md R160, 20_memory.md R50). -/

namespace Sys2Proof.Machine

/-- One transition of the endpoint. -/
def step (s : State) : Host.Outcome State Fault Refusal :=
  match fetch s with
  | .idle => idle s
  | .reset cfg ready => applyReset cfg ready
  | .run i ready => exec i ready
  | .corrupt e ready => .next (takeCorruption e ready)

/-- `s` with an opcode-table word where the next step fetches (log entries 1 and 8); a word the table's formats
cannot hold is not placed. -/
def State.withFetchWord (s : State) (nbits w : Nat) : State :=
  match tableWord nbits w with
  | some word => placeWord word s
  | none => s

end Sys2Proof.Machine
end

