-- ==== Sys2Proof/Machine/Link.lean ====
section
/-! DEFINITION. A link (00_scope.md R2, 44_endpoint.md R171): two endpoints with nothing shared but a transport
that may lose or corrupt and keeps the order of what it delivers (20_memory.md R52). What one endpoint alone does
is in Step; this file only carries byte strings between two of them. -/

namespace Sys2Proof.Machine

/-- One endpoint of a link with its half of the transport and a record of what its application saw. -/
structure LinkSide where
  endpoint : State
  /-- Handed to TRANSMIT and neither arrived nor lost yet, oldest first (R29). -/
  toPeer : List Bytes
  /-- Payloads of the SUBMITs performed, oldest first. -/
  submitted : List Bytes
  /-- Payloads of the DELIVERs emitted, oldest first (R167). -/
  delivered : List Bytes
  deriving DecidableEq, Repr

/-- Two endpoints, A and B (R196). -/
structure Link where
  a : LinkSide
  b : LinkSide
  deriving DecidableEq, Repr

/-- What the environment of a link may do next (R173). -/
inductive LinkEvent where
  /-- The application of a side submits a payload. -/
  | submit (side : EndpointId) (payload : Bytes)
  /-- The timer of a side expires. -/
  | expire (side : EndpointId)
  /-- The oldest byte string on its way to a side arrives unchanged. -/
  | arrive (side : EndpointId)
  /-- The oldest byte string on its way to a side arrives as other bytes. -/
  | corrupt (side : EndpointId) (bytes : Bytes)
  /-- The oldest byte string on its way to a side is lost. -/
  | lose (side : EndpointId)
  deriving DecidableEq, Repr

/-- The byte strings a trace hands to the transport, in order (R166). -/
def traceTransmits (trace : List Action) : List Bytes :=
  trace.filterMap fun a => match a with
    | .transmit bytes => some bytes
    | .deliver _ => none
    | .startTimer _ => none
    | .stopTimer => none

/-- The payloads a trace hands to the application, in order (R167). -/
def traceDelivers (trace : List Action) : List Bytes :=
  trace.filterMap fun a => match a with
    | .transmit _ => none
    | .deliver payload => some payload
    | .startTimer _ => none
    | .stopTimer => none

/-- The payload a command submits, if it is a SUBMIT. -/
def submittedBy : Instr → List Bytes
  | .submit payload => [payload]
  | .pktData _ => []
  | .pktAck _ => []
  | .rx _ => []
  | .timeout => []
  | .cmdReserved _ => []
  | .transmit _ => []
  | .deliver _ => []
  | .startTimer _ => []
  | .stopTimer => []

/-- Present one command to one side and hand its trace to the collaborators (R171, R220). -/
def runCommand (i : Instr) (x : LinkSide) : Option LinkSide :=
  match step { x.endpoint with inbox := [.word (encode i)] } with
  | .next t =>
    some { endpoint := t
           toPeer := x.toPeer ++ traceTransmits t.trace
           submitted := x.submitted ++ submittedBy i
           delivered := x.delivered ++ traceDelivers t.trace }
  | .fault _ => none
  | .refused _ => none

/-- The oldest byte string on the way from `sender` is taken off the transport and presented to `receiver` as
`change` makes it, or not at all (R173). The answer is the sender's side and the receiver's. -/
def carry (change : Bytes → Option Bytes) (sender receiver : LinkSide) : Option (LinkSide × LinkSide) :=
  match sender.toPeer with
  | [] => none
  | bytes :: rest =>
    match change bytes with
    | none => some ({ sender with toPeer := rest }, receiver)
    | some arriving => (runCommand (.rx arriving) receiver).map fun r => ({ sender with toPeer := rest }, r)

/-- `carry` toward a side of a link. -/
def carryTo (side : EndpointId) (change : Bytes → Option Bytes) (l : Link) : Option Link :=
  match side with
  | .a => (carry change l.b l.a).map fun r => { a := r.2, b := r.1 }
  | .b => (carry change l.a l.b).map fun r => { a := r.1, b := r.2 }

/-- A command presented to a side of a link. -/
def commandAt (side : EndpointId) (i : Instr) (l : Link) : Option Link :=
  match side with
  | .a => (runCommand i l.a).map fun x => { l with a := x }
  | .b => (runCommand i l.b).map fun x => { l with b := x }

/-- The state of the side's timer mirror (R18, R222). -/
def timerRunning (side : EndpointId) (l : Link) : Bool :=
  match side with
  | .a => l.a.endpoint.timerArmed
  | .b => l.b.endpoint.timerArmed

/-- One event of a link; none where the environment may not or cannot do it: no byte string is on its way, the
timer is not running (R222), or the command is refused. -/
def linkStep (l : Link) (e : LinkEvent) : Option Link :=
  match e with
  | .submit side payload => commandAt side (.submit payload) l
  | .expire side => if timerRunning side l then commandAt side .timeout l else none
  | .arrive side => carryTo side some l
  | .corrupt side bytes => carryTo side (fun _ => some bytes) l
  | .lose side => carryTo side (fun _ => none) l

/-- A run of a link. -/
def linkRun (l : Link) : List LinkEvent → Option Link
  | [] => some l
  | e :: rest =>
    match linkStep l e with
    | none => none
    | some l' => linkRun l' rest

/-- Two endpoints constructed separately (R196, R214), with nothing on its way. -/
def linkReset (cfgA cfgB : Config) : Link :=
  { a := { endpoint := State.resetWith cfgA, toPeer := [], submitted := [], delivered := [] }
    b := { endpoint := State.resetWith cfgB, toPeer := [], submitted := [], delivered := [] } }

/-- A corruption that DECODE detects (93_implementation_defined.md U10). -/
def detectedCorruption : LinkEvent → Bool
  | .corrupt _ bytes => match decodePacket bytes with
    | .ok _ => false
    | .err _ => true
  | .submit _ _ => true
  | .expire _ => true
  | .arrive _ => true
  | .lose _ => true

/-- Quiescent (R174): nothing in flight, nothing pending, nothing on its way. -/
def linkQuiescent (l : Link) : Bool :=
  l.a.endpoint.inFlight.isEmpty && l.a.endpoint.pending.isEmpty && l.a.toPeer.isEmpty &&
  l.b.endpoint.inFlight.isEmpty && l.b.endpoint.pending.isEmpty && l.b.toPeer.isEmpty

end Sys2Proof.Machine
end

