-- ==== Sys2Proof/Safety.lean ====
section
/-! DEFINITION. What holds of every state reached from reset by commands the environment may give
(10_state.md R33), and the duties of the environment (70_reset_and_hazards.md R220 to R224). -/

namespace Sys2Proof.Safety

open Sys2Proof.Machine

/-- What the environment may queue: commands (R72) and resets (R210), never a word of the two formats that only
the block itself produces or parses (log entry 6). -/
def inputFromEnvironment : Input → Bool
  | .word (.command _ _) => true
  | .word (.packet _) => false
  | .word (.action _ _ _) => false
  | .reset _ => true

/-- The invariants I1 to I7 of R33, with what the parameters of R6 add. -/
structure Inv (s : State) : Prop where
  /-- R19, R6. -/
  config_legal : configLegal s.config = true
  /-- I1 (R11, R14). -/
  window : 1 ≤ s.base ∧ s.base ≤ s.nextSeq ∧ s.nextSeq ≤ s.base + s.config.windowSize
  /-- I2 (R23): the keys of `in_flight` are exactly `base .. next_seq - 1`, in rising order. -/
  keys : s.inFlight.map Prod.fst = List.range' s.base (s.nextSeq - s.base)
  /-- I3: every entry is the packet of a payload that was given its number. -/
  packets : ∀ e ∈ s.inFlight, ∃ payload : Bytes,
    payload.length ≤ s.config.maxPayload ∧ e.2 = dataPacket e.1 payload
  /-- I4 (R26). -/
  pending_full : s.pending ≠ [] → s.nextSeq - s.base = s.config.windowSize
  /-- I5 (R18). -/
  timer : s.timerArmed = true ↔ s.inFlight ≠ []
  /-- I6 (R17), with the first half of I7. -/
  last_ack : 1 ≤ s.expectedSeq ∧ s.lastAckSent = ackPacket (BitVec.ofNat 32 (s.expectedSeq - 1))
  /-- I7 (R12). -/
  bounds : s.nextSeq ≤ fieldLimit ∧ s.expectedSeq ≤ fieldLimit
  /-- R125: what waits can be sent. -/
  payloads : ∀ payload ∈ s.pending, payload.length ≤ s.config.maxPayload
  /-- R225: a finite queue is not overrun. -/
  depth : ∀ d, s.config.pendingDepth = some d → s.pending.length ≤ d
  /-- Only the environment's inputs wait (log entry 6). -/
  inputs : s.inbox.all inputFromEnvironment = true

/-- Sequence numbers enough for everything that waits (R224). -/
def sequenceSpaceLeft (s : State) : Prop := s.nextSeq + s.pending.length ≤ fieldLimit

/-- Everything that waits can be described by a header (R125). -/
def pendingFits (s : State) : Prop := ∀ payload ∈ s.pending, payload.length ≤ s.config.maxPayload

/-- How many payloads an accepted ACK `a` drains from `pending` (R133): no more than wait, and no more than
window slots are open once `base` is `a + 1`. -/
def drainCount (a : Nat) (s : State) : Nat :=
  min s.pending.length (s.config.windowSize - (s.nextSeq - (a + 1)))

/-- The packets of payloads that are given consecutive sequence numbers from `seq` on. -/
def numberedPackets (seq : Nat) : List Bytes → List (Nat × Bytes)
  | [] => []
  | payload :: rest => (seq, dataPacket seq payload) :: numberedPackets (seq + 1) rest

/-- The actions of a drain (R133): a TRANSMIT for each packet, and a START_TIMER after the first one if nothing
was in flight when it was sent. -/
def drainActions (d : Duration) (nothingInFlight : Bool) (sent : List Bytes) : List Action :=
  match sent with
  | [] => []
  | pkt :: rest =>
    .transmit pkt :: ((if nothingInFlight then [.startTimer d] else []) ++ rest.map .transmit)

/-- Entries put into the store one after the other. -/
def storeInsertAll (m entries : List (Nat × Bytes)) : List (Nat × Bytes) :=
  entries.foldl (fun acc e => storeInsert acc e.1 e.2) m

/-- What the timer mirror says after a trace, from what it said before (R18): 1 after a START_TIMER, 0 after a
STOP_TIMER. -/
def mirrorAfter (before : Bool) : List Action → Bool
  | [] => before
  | .startTimer _ :: rest => mirrorAfter true rest
  | .stopTimer :: rest => mirrorAfter false rest
  | .transmit _ :: rest => mirrorAfter before rest
  | .deliver _ :: rest => mirrorAfter before rest

/-- A next state seen through `f`; a stop is itself. -/
def mapNext (f : State → State) : Result → Result
  | .next s => .next (f s)
  | .fault e => .fault e
  | .refused r => .refused r

/-- The same endpoint under another identity (R21). -/
def withEndpointId (e : EndpointId) (s : State) : State :=
  { s with config := { s.config with endpointId := e } }

/-- The same endpoint with another timer mirror (R18). -/
def withTimerArmed (b : Bool) (s : State) : State := { s with timerArmed := b }

/-- A byte string with bit `j` of byte `i` changed (R94, R114). -/
def flipBit (B : Bytes) (i j : Nat) : Bytes := B.set i (byteAt B i ^^^ BitVec.ofNat 8 (2 ^ j))

/-- The environment's duties for one command (R223, R224, R225): SUBMIT a payload that a header can describe, with
a sequence number left and room to wait; an RX or a TIMEOUT with numbers left for what waits; the reserved code
only to an implementation that ignores it (R73). The other rows are not presented by the environment. -/
def dutyKept (i : Instr) (s : State) : Prop :=
  match i with
  | .submit payload =>
    payload.length ≤ s.config.maxPayload ∧ s.nextSeq < fieldLimit ∧ pendingHasRoom s = true
  | .rx _ => sequenceSpaceLeft s
  | .timeout => True
  | .cmdReserved _ => s.config.reservedPolicy = .ignore
  | .pktData _ => False
  | .pktAck _ => False
  | .transmit _ => False
  | .deliver _ => False
  | .startTimer _ => False
  | .stopTimer => False

/-- The next input is a command of the environment, not a reset (R72). -/
def nextIsCommand (s : State) : Bool :=
  match s.inbox with
  | .word (.command _ _) :: _ => true
  | _ => false

/-! ## A link (log entry 16) -/

/-- What a side of a link may have handed to the transport: the packet of a payload that its application submitted, under
the number that payload was given, or the ACK of a number that its receiver has accepted. -/
def mayHaveSent (x : LinkSide) (bytes : Bytes) : Prop :=
  (∃ seq payload, 1 ≤ seq ∧ seq < x.endpoint.nextSeq ∧ x.submitted[seq - 1]? = some payload ∧
    payload.length < fieldLimit ∧ bytes = dataPacket seq payload) ∨
  (∃ a, a + 1 ≤ x.endpoint.expectedSeq ∧ bytes = ackPacket (BitVec.ofNat 32 a))

/-- One side of a link between two events: its endpoint's invariants, whatever is queued, and how its registers stand to
what its application submitted. -/
structure SideInv (x : LinkSide) : Prop where
  /-- R33. -/
  endpoint : Inv { x.endpoint with inbox := [] }
  /-- Only submitted payloads are given numbers. -/
  numbered : x.endpoint.nextSeq - 1 ≤ x.submitted.length
  /-- What waits is what was submitted and has no number yet, in order (R25). -/
  waiting : x.endpoint.pending = x.submitted.drop (x.endpoint.nextSeq - 1)
  /-- Every in-flight entry is the packet of the payload of its number (R22). -/
  inFlight : ∀ e ∈ x.endpoint.inFlight, ∃ payload : Bytes, x.submitted[e.1 - 1]? = some payload ∧
    payload.length < fieldLimit ∧ e.2 = dataPacket e.1 payload
  /-- Everything on its way was sent by this side (R29). -/
  onItsWay : ∀ bytes ∈ x.toPeer, mayHaveSent x bytes

/-- One direction of a link, from the application of `x` to that of `y` (R151). -/
structure DirectionInv (x y : LinkSide) : Prop where
  /-- What was delivered is the front of what was submitted, as far as `expected_seq` has counted. -/
  delivered : y.delivered = x.submitted.take (y.endpoint.expectedSeq - 1)
  /-- Nothing is acknowledged that was not accepted. -/
  acknowledged : x.endpoint.base ≤ y.endpoint.expectedSeq
  /-- Nothing is accepted that was not sent. -/
  accepted : y.endpoint.expectedSeq ≤ x.endpoint.nextSeq

/-- The invariant of a link. -/
structure LinkInv (l : Link) : Prop where
  sideA : SideInv l.a
  sideB : SideInv l.b
  aToB : DirectionInv l.a l.b
  bToA : DirectionInv l.b l.a

end Sys2Proof.Safety
end

