-- ==== Sys2Proof/Certificates/Slice0/Obligations.lean ====
section
/-! DEFINITION. The statements for the provers. Each docstring names the rules a statement formalises; where a
clause is an inference the spec marks as its own, or the model's choice, the docstring says so. -/

open Sys2Proof Sys2Proof.Machine Sys2Proof.Safety

/-! ## The checksum unit (40_checksum.md) -/

/-- R86, WORDS: with `B'` the string padded to even length, word `k` is `B'[2k]·256 + B'[2k+1]`, and there are
`len(B') / 2` words. -/
def Obligations.WordsAreBigEndianPairsOfPaddedString : Prop :=
  ∀ (B : Bytes), let padded := if B.length % 2 = 1 then B ++ [0] else B
    (words B).length = padded.length / 2 ∧
    ∀ k, k < padded.length / 2 →
      (words B)[k]? = some ((byteAt padded (2 * k)).toNat * 256 + (byteAt padded (2 * k + 1)).toNat)

/-- R87, FOLD: the loop test and body of the rule, and the bound on its result. -/
def Obligations.FoldIteratesEndAroundCarry : Prop :=
  ∀ x : Nat,
    (x >>> 16 = 0 → fold x = x) ∧
    (x >>> 16 ≠ 0 → fold x = fold ((x &&& 0xFFFF) + (x >>> 16))) ∧
    fold x ≤ 0xFFFF

/-- R90, an inference the spec marks as its own: the closed form of FOLD. -/
def Obligations.FoldHasClosedForm : Prop :=
  ∀ x : Nat, fold x = if x = 0 then 0 else (x - 1) % 0xFFFF + 1

/-- R88, CHECKSUM: the one's complement of the folded exact sum of the words, as R89 computes it. -/
def Obligations.ChecksumComplementsFoldedSum : Prop :=
  ∀ B : Bytes, (checksum B).toNat = 0xFFFF - fold ((words B).foldl (· + ·) 0)

/-- R91, an inference the spec marks as its own: one word at a time with end-around carry gives the fold of the
exact sum, and each addition stays within 17 bits. -/
def Obligations.IncrementalSumFoldsAlike : Prop :=
  ∀ ws : List Nat, foldIncremental ws = fold ws.sum ∧
    ∀ w, w ≤ 0xFFFF → foldIncremental ws + w ≤ 0x1FFFE

/-- R92, an inference the spec marks as its own: when CHECKSUM is `0xFFFF` and when it is `0x0000`. -/
def Obligations.ChecksumSpecialValues : Prop :=
  ∀ B : Bytes,
    (checksum B = 0xFFFF#16 ↔ ∀ b ∈ B, b = 0#8) ∧
    (checksum B = 0x0000#16 ↔ 0 < wordSum B ∧ wordSum B % 0xFFFF = 0)

/-! ## The packet codec (41_codec.md) -/

/-- R102, ENCODE: every field of the result at its place, and the checksum field is the checksum of the result with
offsets 8 and 9 zero. -/
def Obligations.EncodeLaysOutEveryField : Prop :=
  ∀ (seq ack : Word32) (isAck : Bool) (payload : Bytes), payload.length < fieldLimit →
    let B := encodePacket seq ack isAck payload
    B.length = 15 + payload.length ∧
    B.take 4 = be32 seq ∧ (B.drop 4).take 4 = be32 ack ∧
    (B.drop 8).take 2 = be16 (checksum (B.take 8 ++ [0, 0] ++ B.drop 10)) ∧
    B[10]? = some (if isAck then 0x01 else 0x00) ∧
    (B.drop 11).take 4 = be32 (BitVec.ofNat 32 payload.length) ∧
    B.drop 15 = payload

/-- R106 to R109, DECODE: the two length tests before the checksum test, VERIFY over all received bytes (R110), and the
fields of the packet an `Ok` carries (R112). -/
def Obligations.DecodeTestsLengthThenChecksum : Prop :=
  ∀ B : Bytes,
    (B.length < 15 → decodePacket B = .err .truncated) ∧
    (15 ≤ B.length → B.length < 15 + (u32be B 11).toNat → decodePacket B = .err .truncated) ∧
    (15 + (u32be B 11).toNat ≤ B.length → checksum (B.take 8 ++ [0, 0] ++ B.drop 10) ≠ u16be B 8 →
      decodePacket B = .err .checksumMismatch) ∧
    (15 + (u32be B 11).toNat ≤ B.length → checksum (B.take 8 ++ [0, 0] ++ B.drop 10) = u16be B 8 →
      ∃ p : Packet, decodePacket B = .ok p ∧
        p.sequenceNumber = u32be B 0 ∧ p.acknowledgmentNumber = u32be B 4 ∧ p.checksum = u16be B 8 ∧
        (p.isAck = true ↔ byteAt B 10 ≠ 0x00#8) ∧ p.payloadLength = u32be B 11 ∧
        p.payload = (B.drop 15).take (u32be B 11).toNat ∧ p.payload.length = p.payloadLength.toNat)

/-- R113, the document's property "`Decode(Encode(p))` recovers `p` exactly" with the inference the spec marks as
its own: every field comes back, for every payload a header can describe. -/
def Obligations.DecodeOfEncodeRecoversPacket : Prop :=
  ∀ (seq ack : Word32) (isAck : Bool) (payload : Bytes), payload.length < fieldLimit →
    ∃ p : Packet, decodePacket (encodePacket seq ack isAck payload) = .ok p ∧
      p.sequenceNumber = seq ∧ p.acknowledgmentNumber = ack ∧ p.isAck = isAck ∧
      p.payloadLength.toNat = payload.length ∧ p.payload = payload ∧
      p.checksum = checksum (zeroChecksum (encodePacket seq ack isAck payload))

/-- R114, an inference the spec marks as its own: every change of one bit of an encoded packet is rejected;
`Truncated` exactly for a 0 of `payload_length` turned to 1, `ChecksumMismatch` for every other bit. -/
def Obligations.EverySingleBitFlipIsRejected : Prop :=
  ∀ (seq ack : Word32) (isAck : Bool) (payload : Bytes) (i j : Nat), payload.length < fieldLimit →
    let B := encodePacket seq ack isAck payload
    i < B.length → j < 8 →
    decodePacket (flipBit B i j) =
      if 11 ≤ i ∧ i ≤ 14 ∧ (byteAt B i).getLsbD j = false then .err .truncated else .err .checksumMismatch

/-- R93, an inference the spec marks as its own: the whole-packet test accepts what VERIFY accepts and, besides, only
the strings whose zeroed sum is a positive multiple of `0xFFFF` and whose field is `0xFFFF`; those VERIFY
rejects. -/
def Obligations.AcceptTestsDifferInOneCase : Prop :=
  ∀ B : Bytes, 15 ≤ B.length →
    let T := wordSum (zeroChecksum B)
    (wholePacketAccepts B = true ↔ verify B = true ∨ (0 < T ∧ T % 0xFFFF = 0 ∧ u16be B 8 = 0xFFFF#16)) ∧
    (0 < T ∧ T % 0xFFFF = 0 ∧ u16be B 8 = 0xFFFF#16 → verify B = false)

/-- R93 and R92, inferences the spec marks as its own: an encoded packet sums to the accept value `0x0000`, and the
field of a data packet or ACK the block builds is never `0xFFFF`. -/
def Obligations.EncodedPacketsSumToAcceptValue : Prop :=
  (∀ (seq ack : Word32) (isAck : Bool) (payload : Bytes), payload.length < fieldLimit →
    wholePacketAccepts (encodePacket seq ack isAck payload) = true) ∧
  (∀ (seq : Nat) (payload : Bytes), 1 ≤ seq → seq < fieldLimit → payload.length < fieldLimit →
    u16be (dataPacket seq payload) 8 ≠ 0xFFFF#16) ∧
  (∀ a : Word32, u16be (ackPacket a) 8 ≠ 0xFFFF#16)

/-! ## Encodings (30_encoding.md) -/

/-- R60, R72, R74: decoding what the encoder writes gives the instruction back, for all ten rows, with every
operand at every value the encoding admits. -/
def Obligations.DecodeOfEncodeIsIdentity : Prop :=
  ∀ i : Instr, i.wellFormed = true → decode (encode i) = .ok i

/-- R72, R74, R60: where a word has one meaning, encoding what it decodes to gives the word back: every command and
action word whose unread operands are zero (log entry 13), and every packet word without trailing bytes whose `is_ack`
byte is one the encoder writes. -/
def Obligations.EncodeOfDecodeIsIdentity : Prop :=
  (∀ (op : BitVec 2) (operand : Bytes) (i : Instr), decode (.command op operand) = .ok i →
    (op = 0b10#2 → operand = []) → encode i = .command op operand) ∧
  (∀ (act : BitVec 2) (bytes : Bytes) (d : Duration) (i : Instr), decode (.action act bytes d) = .ok i →
    (act = 0b10#2 ∨ act = 0b11#2 → bytes = []) → (act ≠ 0b10#2 → d = 0) → encode i = .action act bytes d) ∧
  (∀ (B : Bytes) (i : Instr), decode (.packet B) = .ok i → B.length = 15 + (u32be B 11).toNat →
    byteAt B 10 = 0x00#8 ∨ byteAt B 10 = 0x01#8 → encode i = .packet B)

/-- R68 and R71: which kind a packet is depends on its `is_ack` byte alone; 0x00 is PKT_DATA and each of 0x01 to
0xFF is PKT_ACK (R64). That a word is read so whatever its checksum is the model's choice (log entry 7). -/
def Obligations.PacketKindFollowsIsAckByte : Prop :=
  ∀ B : Bytes, 15 + (u32be B 11).toNat ≤ B.length →
    (byteAt B 10 = 0x00#8 → ∃ p, decode (.packet B) = .ok (.pktData p)) ∧
    (byteAt B 10 ≠ 0x00#8 → ∃ p, decode (.packet B) = .ok (.pktAck p))

/-- R60, R72, R74: words written out bit by bit from the spec's encodings decode to the instructions they stand
for: ACK(2) and DATA(1,"a") byte for byte, the four command codes, the four action codes. -/
def Obligations.WordsOfTheSpecDecode : Prop :=
  decode (.packet [0x00, 0x00, 0x00, 0x00, 0x00, 0x00, 0x00, 0x02, 0xFE, 0xFD, 0x01, 0x00, 0x00, 0x00, 0x00]) =
    .ok (.pktAck ⟨0, 2, 0xFEFD, true, 0, []⟩) ∧
  decode (.packet [0x00, 0x00, 0x00, 0x01, 0x00, 0x00, 0x00, 0x00, 0xFE, 0x9D, 0x00, 0x00, 0x00, 0x00, 0x01,
    0x61]) = .ok (.pktData ⟨1, 0, 0xFE9D, false, 1, [0x61]⟩) ∧
  decode (.command 0b00#2 [0x61]) = .ok (.submit [0x61]) ∧
  decode (.command 0b01#2 []) = .ok (.rx []) ∧
  decode (.command 0b10#2 []) = .ok .timeout ∧
  decode (.command 0b11#2 []) = .ok (.cmdReserved []) ∧
  decode (.action 0b00#2 [0x61] 0) = .ok (.transmit [0x61]) ∧
  decode (.action 0b01#2 [0x61] 0) = .ok (.deliver [0x61]) ∧
  decode (.action 0b10#2 [] 7) = .ok (.startTimer 7) ∧
  decode (.action 0b11#2 [] 0) = .ok .stopTimer

/-! ## SUBMIT (42_sender.md R121 to R125) -/

/-- R121 with R123, R124, R125: SUBMIT with the window open. The payload gets `next_seq`, is encoded with
acknowledgment field 0, stored and transmitted; the timer starts exactly when nothing was in flight; or the
refusal of R124, else of R125. -/
def Obligations.SubmitSendsWhenWindowOpen : Prop :=
  ∀ (payload : Bytes) (s : State), s.nextSeq - s.base < s.config.windowSize →
    (s.nextSeq < fieldLimit → payload.length ≤ s.config.maxPayload →
      let pkt := encodePacket (BitVec.ofNat 32 s.nextSeq) 0 false payload
      exec (.submit payload) s = .next { s with
        inFlight := storeInsert s.inFlight s.nextSeq pkt
        nextSeq := s.nextSeq + 1
        timerArmed := if s.base = s.nextSeq then true else s.timerArmed
        trace := s.trace ++ [.transmit pkt] ++
          (if s.base = s.nextSeq then [.startTimer s.config.timerInterval] else []) }) ∧
    (fieldLimit ≤ s.nextSeq → exec (.submit payload) s = .refused .sequenceNumbersExhausted) ∧
    (s.nextSeq < fieldLimit → s.config.maxPayload < payload.length →
      exec (.submit payload) s = .refused .payloadTooLong)

/-- R122: with the window full the payload goes to the back of the queue and nothing else happens; for the
normative unbounded queue always, for a finite one while it has room (R225). -/
def Obligations.SubmitBuffersWhenWindowFull : Prop :=
  ∀ (payload : Bytes) (s : State), s.config.windowSize ≤ s.nextSeq - s.base →
    payload.length ≤ s.config.maxPayload →
    (∀ depth, s.config.pendingDepth = some depth → s.pending.length < depth) →
    exec (.submit payload) s = .next { s with pending := s.pending ++ [payload] }

/-- U5 and U4 (R125, R225): with the window full, a payload longer than `MAX_PAYLOAD` is refused, which is the
model's reading of R125 beside R122 (log entry 9), and so is one more payload than a finite queue holds. -/
def Obligations.SubmitStopsWhenItCannotBuffer : Prop :=
  ∀ (payload : Bytes) (s : State), s.config.windowSize ≤ s.nextSeq - s.base →
    (s.config.maxPayload < payload.length → exec (.submit payload) s = .refused .payloadTooLong) ∧
    (∀ depth, payload.length ≤ s.config.maxPayload → s.config.pendingDepth = some depth →
      depth ≤ s.pending.length → exec (.submit payload) s = .refused .pendingOverflow)

/-- What a SUBMIT leaves unchanged (R32): every register but `next_seq` and the timer mirror, every in-flight slot
but that of the number given out, and of `pending` all that was there. -/
def Obligations.SubmitFrame : Prop :=
  ∀ (payload : Bytes) (s t : State), exec (.submit payload) s = .next t →
    t.base = s.base ∧ t.expectedSeq = s.expectedSeq ∧ t.lastAckSent = s.lastAckSent ∧ t.config = s.config ∧
    t.inbox = s.inbox ∧
    (∀ k, k ≠ s.nextSeq → storeRead t.inFlight k = storeRead s.inFlight k) ∧
    (t.pending = s.pending ∨ t.pending = s.pending ++ [payload]) ∧
    (t.pending ≠ s.pending → t.nextSeq = s.nextSeq ∧ t.inFlight = s.inFlight ∧ t.timerArmed = s.timerArmed)

/-! ## ACKs (42_sender.md R130 to R135, 43_receiver.md R150) -/

/-- R130, ON_ACK, as the PKT_ACK row performs it. An ACK that is no progress beyond `base` or acknowledges a number
never sent changes nothing and emits nothing; any other drops the acknowledged entries, moves `base`, gives as many
waiting payloads the next numbers as there are open slots, and closes with one timer action. The two premises of the
second clause are those of SEND_NEW (R124, R125) for the payloads that are drained. -/
def Obligations.AckIsIgnoredOrAdvancesDrainsAndCloses : Prop :=
  ∀ (p : Packet) (s : State), let a := p.acknowledgmentNumber.toNat
    (a < s.base ∨ s.nextSeq ≤ a → exec (.pktAck p) s = .next s) ∧
    (s.base ≤ a → a < s.nextSeq →
      let k := drainCount a s
      let sent := numberedPackets s.nextSeq (s.pending.take k)
      let outstanding := a + 1 < s.nextSeq + k
      s.nextSeq + k ≤ fieldLimit → (∀ payload ∈ s.pending.take k, payload.length ≤ s.config.maxPayload) →
      exec (.pktAck p) s = .next { s with
        base := a + 1
        nextSeq := s.nextSeq + k
        pending := s.pending.drop k
        inFlight := storeInsertAll (storeRemoveRange s.inFlight s.base a) sent
        timerArmed := decide outstanding
        trace := s.trace ++
          drainActions s.config.timerInterval (decide (a + 1 = s.nextSeq)) (sent.map Prod.snd) ++
          [if outstanding then .startTimer s.config.timerInterval else .stopTimer] })

/-- R124 and R125 inside a drain (R133): an accepted ACK whose drain would run past the last sequence number, or reaches
a payload that no header can describe, is refused, and the whole command with it (the model's choice, log entry 15). -/
def Obligations.AckIsRefusedWhenItsDrainIs : Prop :=
  ∀ (p : Packet) (s : State), let a := p.acknowledgmentNumber.toNat
    s.base ≤ a → a < s.nextSeq →
    let drained := s.pending.take (drainCount a s)
    (drained ≠ [] → fieldLimit < s.nextSeq + drained.length →
      (∀ payload ∈ drained, payload.length ≤ s.config.maxPayload) →
      exec (.pktAck p) s = .refused .sequenceNumbersExhausted) ∧
    (s.nextSeq + drained.length ≤ fieldLimit → (∃ payload ∈ drained, s.config.maxPayload < payload.length) →
      exec (.pktAck p) s = .refused .payloadTooLong)

/-- R150: only the acknowledgment number of an ACK is read; of a data packet only the sequence number and the
payload are (R62, R148). -/
def Obligations.UnreadPacketFieldsDoNotMatter : Prop :=
  ∀ (p q : Packet) (s : State),
    (p.acknowledgmentNumber = q.acknowledgmentNumber → exec (.pktAck p) s = exec (.pktAck q) s) ∧
    (p.sequenceNumber = q.sequenceNumber → p.payload = q.payload →
      exec (.pktData p) s = exec (.pktData q) s)

/-- What an ACK leaves unchanged (R150: "No receiver-side state changes"; R132): the receiver's registers, the
configuration, and every in-flight slot outside the acknowledged numbers and the numbers given out. -/
def Obligations.AckFrame : Prop :=
  ∀ (p : Packet) (s t : State), exec (.pktAck p) s = .next t →
    t.expectedSeq = s.expectedSeq ∧ t.lastAckSent = s.lastAckSent ∧ t.config = s.config ∧ t.inbox = s.inbox ∧
    (∀ k, ¬(s.base ≤ k ∧ k ≤ p.acknowledgmentNumber.toNat) → ¬(s.nextSeq ≤ k ∧ k < t.nextSeq) →
      storeRead t.inFlight k = storeRead s.inFlight k) ∧
    (∃ n, t.pending = s.pending.drop n ∧ t.nextSeq = s.nextSeq + n)

/-! ## TIMEOUT (42_sender.md R136 to R138) -/

/-- ON_TIMEOUT in every state: the stored bytes of `base .. next_seq - 1` again in ascending order and one
START_TIMER, or with `base = next_seq` only the mirror bit cleared. A number of the range without an entry contributes
nothing: the model's choice for states that no run reaches (log entry 10). -/
def Obligations.TimeoutResendsOrDoesNothing : Prop :=
  ∀ s : State,
    (s.base ≠ s.nextSeq → exec .timeout s = .next { s with
      timerArmed := true
      trace := s.trace ++
        ((List.range' s.base (s.nextSeq - s.base)).filterMap (storeRead s.inFlight)).map .transmit ++
        [.startTimer s.config.timerInterval] }) ∧
    (s.base = s.nextSeq → exec .timeout s = .next { s with timerArmed := false })

/-- R136, R137, R138, in every state that meets the invariants: with packets in flight, every one of them again, in
ascending order, the stored bytes, then one START_TIMER; with none, only the mirror bit is cleared. Under R222 (TIMEOUT
only for a running timer) there is always one in flight. -/
def Obligations.TimeoutResendsEveryPacketInFlight : Prop :=
  ∀ s : State, Inv s →
    (s.inFlight ≠ [] → exec .timeout s = .next { s with
      timerArmed := true
      trace := s.trace ++ (s.inFlight.map fun e => Action.transmit e.2) ++
        [.startTimer s.config.timerInterval] }) ∧
    (s.inFlight = [] → exec .timeout s = .next { s with timerArmed := false }) ∧
    (s.inFlight.map Prod.fst).Pairwise (· < ·) ∧
    (s.timerArmed = true → s.inFlight ≠ [])

/-- What a TIMEOUT leaves unchanged (R136: "`base`, `next_seq`, `in_flight` and `pending` are not touched"; R163):
everything but the mirror bit and the trace. -/
def Obligations.TimeoutFrame : Prop :=
  ∀ s t : State, exec .timeout s = .next t →
    t.base = s.base ∧ t.nextSeq = s.nextSeq ∧ t.inFlight = s.inFlight ∧ t.pending = s.pending ∧
    t.expectedSeq = s.expectedSeq ∧ t.lastAckSent = s.lastAckSent ∧ t.config = s.config ∧ t.inbox = s.inbox ∧
    traceDelivers t.trace = traceDelivers s.trace

/-! ## RX and the packet rows (43_receiver.md) -/

/-- R147: a byte string that DECODE rejects, of either kind, is answered by exactly one TRANSMIT of the stored bytes, and
no state changes; before any data packet has been accepted those are `ACK(0)`. -/
def Obligations.CorruptRxRepeatsLastAck : Prop :=
  ∀ (bytes : Bytes),
    decodePacket bytes = .err .truncated ∨ decodePacket bytes = .err .checksumMismatch →
    (∀ s : State, exec (.rx bytes) s = .next { s with trace := s.trace ++ [.transmit s.lastAckSent] }) ∧
    ∀ cfg : Config, exec (.rx bytes) (State.resetWith cfg) =
      .next { State.resetWith cfg with trace := [.transmit (encodePacket 0 0 true [])] }

/-- R148: data in order, as the PKT_DATA row and as the RX that carries it: DELIVER, a new ACK for its number stored
and transmitted, `expected_seq` counted. -/
def Obligations.DataInOrderIsDeliveredAndAcknowledged : Prop :=
  ∀ (p : Packet) (s : State), p.sequenceNumber.toNat = s.expectedSeq →
    let ack := encodePacket 0 p.sequenceNumber true []
    let t := { s with
      expectedSeq := s.expectedSeq + 1
      lastAckSent := ack
      trace := s.trace ++ [.deliver p.payload, .transmit ack] }
    exec (.pktData p) s = .next t ∧
    ∀ bytes, decodePacket bytes = .ok p → p.isAck = false → exec (.rx bytes) s = .next t

/-- R149: data not in order, ahead or behind, as the PKT_DATA row and as the RX that carries it: one TRANSMIT of the
stored bytes, no state change. -/
def Obligations.DataOutOfOrderRepeatsLastAck : Prop :=
  ∀ (p : Packet) (s : State), p.sequenceNumber.toNat ≠ s.expectedSeq →
    let t := { s with trace := s.trace ++ [.transmit s.lastAckSent] }
    exec (.pktData p) s = .next t ∧
    ∀ bytes, decodePacket bytes = .ok p → p.isAck = false → exec (.rx bytes) s = .next t

/-- R150 with R162: the RX of an ACK is what the PKT_ACK row does, so all of it is ON_ACK's. -/
def Obligations.RxOfAckForwardsToSender : Prop :=
  ∀ (bytes : Bytes) (p : Packet) (s : State), decodePacket bytes = .ok p → p.isAck = true →
    exec (.rx bytes) s = exec (.pktAck p) s

/-- R162: RX takes any byte string of any length and content. With numbers left for what waits (R124) and what waits
fitting a header (R125), it always completes; it takes nothing from the queue and keeps the configuration. -/
def Obligations.RxCompletesOnEveryByteString : Prop :=
  ∀ (bytes : Bytes) (s : State), sequenceSpaceLeft s → pendingFits s →
    ∃ t, exec (.rx bytes) s = .next t ∧ t.inbox = s.inbox ∧ t.config = s.config

/-- What the receiver's branches leave unchanged (R32: "The receiver never reads or writes sender state"): PKT_DATA,
and the RX of anything that is not a valid ACK. -/
def Obligations.ReceiverFrame : Prop :=
  ∀ (s t : State),
    ((∃ p, exec (.pktData p) s = .next t) ∨
     (∃ bytes, exec (.rx bytes) s = .next t ∧ ∀ p, decodePacket bytes = .ok p → p.isAck = false)) →
    t.base = s.base ∧ t.nextSeq = s.nextSeq ∧ t.inFlight = s.inFlight ∧ t.pending = s.pending ∧
    t.timerArmed = s.timerArmed ∧ t.config = s.config ∧ t.inbox = s.inbox ∧
    (t.expectedSeq = s.expectedSeq → t.lastAckSent = s.lastAckSent)

/-! ## The action rows and the reserved code -/

/-- R166 to R169: each action row, alone, appends its one action to the trace; START_TIMER sets the mirror bit and
STOP_TIMER clears it (R18); nothing else changes. That a row can be run alone is the model's choice (log entry
6). -/
def Obligations.ActionRowsEmitOneAction : Prop :=
  ∀ (bytes : Bytes) (d : Duration) (s : State),
    exec (.transmit bytes) s = .next { s with trace := s.trace ++ [.transmit bytes] } ∧
    exec (.deliver bytes) s = .next { s with trace := s.trace ++ [.deliver bytes] } ∧
    exec (.startTimer d) s = .next { s with trace := s.trace ++ [.startTimer d], timerArmed := true } ∧
    exec .stopTimer s = .next { s with trace := s.trace ++ [.stopTimer], timerArmed := false }

/-- R73: "a model refuses it (`refuse(reserved_command)`); an implementation ignores it, changing no state and
emitting no action". Which of the two is a parameter of the model (log entry 5). -/
def Obligations.ReservedCodeIsRefusedOrIgnored : Prop :=
  ∀ (operand : Bytes) (s : State),
    (s.config.reservedPolicy = .refuse → exec (.cmdReserved operand) s = .refused .reservedCommand) ∧
    (s.config.reservedPolicy = .ignore → exec (.cmdReserved operand) s = .next s)

/-! ## Reset (10_state.md R31, 70_reset_and_hazards.md R210 to R212) -/

/-- R31: the complete reset state, for any construction arguments, and `last_ack_sent` is `ENCODE(0, 0, true, [])`. -/
def Obligations.ResetStateIsAsListed : Prop :=
  ∀ cfg : Config,
    (State.resetWith cfg).base = 1 ∧ (State.resetWith cfg).nextSeq = 1 ∧ (State.resetWith cfg).inFlight = [] ∧
    (State.resetWith cfg).pending = [] ∧ (State.resetWith cfg).expectedSeq = 1 ∧
    (State.resetWith cfg).lastAckSent =
      [0x00, 0x00, 0x00, 0x00, 0x00, 0x00, 0x00, 0x00, 0xFE, 0xFF, 0x01, 0x00, 0x00, 0x00, 0x00] ∧
    (State.resetWith cfg).lastAckSent = encodePacket 0 0 true [] ∧
    (State.resetWith cfg).timerArmed = false ∧ (State.resetWith cfg).config = cfg

/-- R210 and R212: a reset between commands gives R31's state whatever the life before it, and emits no action;
`WINDOW_SIZE = 0` is refused (U8). What waits behind the reset stays queued (the model's choice, log entry 14). -/
def Obligations.ResetInputKeepsNothing : Prop :=
  ∀ (s : State) (cfg : Config) (rest : List Input), s.inbox = .reset cfg :: rest →
    (1 ≤ cfg.windowSize → cfg.maxPayload < fieldLimit →
      step s = .next { State.resetWith cfg with inbox := rest } ∧
      (State.resetWith cfg).trace = []) ∧
    (cfg.windowSize = 0 → step s = .refused .windowSizeZero)

/-- R211: "Configuration is taken at reset and at no other time": no instruction changes it, and a step changes it
only if its input is a reset. -/
def Obligations.ConfigurationChangesOnlyAtReset : Prop :=
  (∀ (i : Instr) (s t : State), exec i s = .next t → t.config = s.config) ∧
  (∀ s t : State, step s = .next t → t.config = s.config ∨ ∃ rest, s.inbox = .reset t.config :: rest)

/-! ## The step (44_endpoint.md R160) -/

/-- R160: a step on a queued word that decodes to `i` is `exec i` with that word taken from the queue and the trace
of the new command empty; without input the block holds its state (R197). The queue is the model's (log entries 1
and 2). -/
def Obligations.StepRunsDecodedInstruction : Prop :=
  (∀ (s : State) (w : PortWord) (rest : List Input) (i : Instr), s.inbox = .word w :: rest → decode w = .ok i →
    step s = exec i { s with inbox := rest, trace := [] }) ∧
  (∀ s : State, s.inbox = [] → step s = .next s)

/-- R70: "A received byte string is either a packet (`Ok`) or corrupt (`Err(Truncated)`, `Err(ChecksumMismatch)`); there
is no third outcome". Every command word and every action word is an instruction (log entry 13). A packet word that is not
truncated is one too, even with a wrong checksum, which R70 calls corrupt: the model's choice (log entry 7), because R71
has the header bits alone select the packet row, and DECODE's checksum test stands in RX. A truncated packet word (R108,
R109) is answered by the one TRANSMIT of R147. That packet words can be queued is the model's choice (log entries 6 and
13). -/
def Obligations.EveryWordIsRunOrAnsweredAsCorrupt : Prop :=
  (∀ (op : BitVec 2) (x : Bytes), ∃ i, decode (.command op x) = .ok i) ∧
  (∀ (act : BitVec 2) (x : Bytes) (d : Duration), ∃ i, decode (.action act x d) = .ok i) ∧
  (∀ B : Bytes, 15 ≤ B.length → 15 + (u32be B 11).toNat ≤ B.length → ∃ i, decode (.packet B) = .ok i) ∧
  (∀ (B : Bytes) (s : State) (rest : List Input), s.inbox = .word (.packet B) :: rest →
    B.length < 15 ∨ B.length < 15 + (u32be B 11).toNat →
    step s = .next { s with inbox := rest, trace := [.transmit s.lastAckSent] })

/-- The opcode table's numbering (R71, R72; log entry 8): a table word that decodes is what the next step runs. -/
def Obligations.FetchedTableWordRuns : Prop :=
  ∀ (s : State) (nbits w : Nat) (i : Instr), decodeTableWord nbits w = some i →
    step (s.withFetchWord nbits w) = exec i { s with trace := [] }

/-- R160: "`step` is defined for every state and every command except where a rule says `refuse`". Every refusal of
a step is one of: an illegal configuration at reset (U8, log entry 4), the reserved code (R73), sequence numbers
exhausted (R124), a payload too long (R125), a finite queue full (U4). -/
def Obligations.StepIsRefusedOnlyByRule : Prop :=
  ∀ (s : State) (r : Refusal), step s = .refused r →
    (∃ cfg rest, s.inbox = .reset cfg :: rest ∧
      ((r = .windowSizeZero ∧ cfg.windowSize = 0) ∨ (r = .maxPayloadTooLarge ∧ fieldLimit ≤ cfg.maxPayload))) ∨
    (∃ w rest i, s.inbox = .word w :: rest ∧ decode w = .ok i ∧
      ((∃ operand, i = .cmdReserved operand ∧ s.config.reservedPolicy = .refuse ∧ r = .reservedCommand) ∨
       (∃ payload, i = .submit payload ∧
         ((r = .sequenceNumbersExhausted ∧ fieldLimit ≤ s.nextSeq) ∨
          (r = .payloadTooLong ∧ s.config.maxPayload < payload.length) ∨
          (r = .pendingOverflow ∧ s.config.windowSize ≤ s.nextSeq - s.base ∧
            ∃ depth, s.config.pendingDepth = some depth ∧ depth ≤ s.pending.length))) ∨
       (∃ p, (i = .pktAck p ∨ ∃ bytes, i = .rx bytes ∧ decodePacket bytes = .ok p ∧ p.isAck = true) ∧
         s.base ≤ p.acknowledgmentNumber.toNat ∧ p.acknowledgmentNumber.toNat < s.nextSeq ∧
         ((r = .sequenceNumbersExhausted ∧ fieldLimit < s.nextSeq + s.pending.length) ∨
          (r = .payloadTooLong ∧ ∃ payload ∈ s.pending, s.config.maxPayload < payload.length)))))

/-- R187 ("There is no fatal error path in the core") with R174: from every state that meets the invariants, a
command presented within the environment's duties (R223 to R225) completes, and the block is ready for the next. -/
def Obligations.StepCompletesWithinDuties : Prop :=
  ∀ (s : State) (w : PortWord) (rest : List Input) (i : Instr),
    Inv s → s.inbox = .word w :: rest → decode w = .ok i → dutyKept i s →
    ∃ t, step s = .next t ∧ t.inbox = rest

/-! ## Invariants (10_state.md R33) -/

/-- R33 at reset: I1 to I7 hold of `State.reset`, and of the reset state of every legal configuration. -/
def Obligations.ResetMeetsInvariants : Prop :=
  Inv State.reset ∧ ∀ cfg : Config, configLegal cfg = true → Inv (State.resetWith cfg)

/-- R33, collected from inferences the spec marks as its own: every step keeps I1 to I7, from every state that meets
them (with only the environment's inputs queued, which `Inv` includes). -/
def Obligations.EveryStepKeepsInvariants : Prop :=
  ∀ s t : State, Inv s → step s = .next t → Inv t

/-- R22: `in_flight` stays an ordered associative container: every instruction keeps its canonical form, in every
state. -/
def Obligations.StoreStaysCanonical : Prop :=
  ∀ (i : Instr) (s t : State), storeWf s.inFlight = true → exec i s = .next t → storeWf t.inFlight = true

/-- R22: an entry "is never modified afterwards, only read ... and removed". In every state that meets the
invariants, a command leaves each in-flight entry byte for byte, or removes it because `base` passed its number. -/
def Obligations.StoredPacketsAreNeverModified : Prop :=
  ∀ s t : State, Inv s → nextIsCommand s = true → step s = .next t →
    ∀ k bytes, storeRead s.inFlight k = some bytes →
      storeRead t.inFlight k = some bytes ∨ (k < t.base ∧ storeRead t.inFlight k = none)

/-- R11 and R16 ("It never decreases"), with R13: no command lowers `base`, `next_seq` or `expected_seq`, and
`expected_seq` moves by at most 1. -/
def Obligations.SequenceRegistersNeverDecrease : Prop :=
  ∀ (i : Instr) (s t : State), exec i s = .next t →
    s.base ≤ t.base ∧ s.nextSeq ≤ t.nextSeq ∧ s.expectedSeq ≤ t.expectedSeq ∧ t.expectedSeq ≤ s.expectedSeq + 1

/-- R151, an inference the spec marks as its own: a command delivers exactly when `expected_seq` grows, and then the
one payload of the valid data packet with that number. -/
def Obligations.DeliveryExactlyWhenExpectedAdvances : Prop :=
  ∀ s t : State, nextIsCommand s = true → step s = .next t →
    (t.expectedSeq = s.expectedSeq ∧ traceDelivers t.trace = []) ∨
    (t.expectedSeq = s.expectedSeq + 1 ∧ ∃ bytes rest p,
      s.inbox = .word (.command 0b01#2 bytes) :: rest ∧ decodePacket bytes = .ok p ∧ p.isAck = false ∧
      p.sequenceNumber.toNat = s.expectedSeq ∧ traceDelivers t.trace = [p.payload])

/-- R18: after a command the mirror bit is 1 if the last timer action was START_TIMER, 0 if it was STOP_TIMER, and
otherwise what it was, counting 0 at the start of a TIMEOUT. -/
def Obligations.TimerMirrorFollowsActions : Prop :=
  ∀ (s t : State) (op : BitVec 2) (operand : Bytes) (rest : List Input),
    s.inbox = .word (.command op operand) :: rest → step s = .next t →
    t.timerArmed = mirrorAfter (if op = 0b10#2 then false else s.timerArmed) t.trace

/-- R20 and R168: every START_TIMER the block emits carries `TIMER_INTERVAL`. -/
def Obligations.TimerStartsCarryTheInterval : Prop :=
  ∀ (s t : State) (d : Duration), nextIsCommand s = true → step s = .next t →
    Action.startTimer d ∈ t.trace → d = s.config.timerInterval

/-- R166: "`bytes` is always a complete packet built by ENCODE at this or an earlier command", in every state that
meets the invariants: a data packet with acknowledgment field 0, or an ACK without payload (R104). -/
def Obligations.TransmittedBytesAreEncodedPackets : Prop :=
  ∀ s t : State, Inv s → nextIsCommand s = true → step s = .next t →
    ∀ bytes ∈ traceTransmits t.trace,
      (∃ seq payload, 1 ≤ seq ∧ seq < fieldLimit ∧ payload.length ≤ s.config.maxPayload ∧
        bytes = encodePacket (BitVec.ofNat 32 seq) 0 false payload) ∨
      (∃ a : Word32, bytes = encodePacket 0 a true [])

/-- R165, its bound for RX an inference the spec marks as its own: a SUBMIT emits at most 2 actions, a TIMEOUT at
most `WINDOW_SIZE + 1`, an RX at most `WINDOW_SIZE + 2`. -/
def Obligations.TraceOfOneCommandIsBounded : Prop :=
  ∀ (s t : State) (rest : List Input), Inv s → step s = .next t →
    (∀ payload, s.inbox = .word (.command 0b00#2 payload) :: rest → t.trace.length ≤ 2) ∧
    (∀ x, s.inbox = .word (.command 0b10#2 x) :: rest → t.trace.length ≤ s.config.windowSize + 1) ∧
    (∀ bytes, s.inbox = .word (.command 0b01#2 bytes) :: rest →
      t.trace.length ≤ s.config.windowSize + 2)

/-! ## What is never read -/

/-- R21: "No rule of this spec reads it": two endpoints that differ only in `ENDPOINT_ID` answer every instruction
alike and differ only in it afterwards. -/
def Obligations.EndpointIdIsNeverRead : Prop :=
  ∀ (i : Instr) (s : State) (e : EndpointId),
    exec i (withEndpointId e s) = mapNext (withEndpointId e) (exec i s)

/-- R18: "no rule's outcome depends on reading it": two endpoints that differ only in `timer_armed` answer every
instruction alike, up to that bit. -/
def Obligations.TimerMirrorIsNeverRead : Prop :=
  ∀ (i : Instr) (s : State) (b : Bool),
    mapNext (withTimerArmed false) (exec i (withTimerArmed b s)) = mapNext (withTimerArmed false) (exec i s)

/-! ## Two endpoints (20_memory.md R52, 43_receiver.md R151, 44_endpoint.md R171 to R174) -/

/-- R33 for a link at reset: two endpoints constructed separately (R196) with nothing on its way meet the invariant of
the link (log entry 16). -/
def Obligations.LinkResetMeetsInvariant : Prop :=
  ∀ cfgA cfgB : Config, configLegal cfgA = true → configLegal cfgB = true → LinkInv (linkReset cfgA cfgB)

/-- The document's property E1 (R151) as a step lemma: whatever the next event of a link, from every link that meets the
invariant (what each application has received is the front of what the peer's submitted, as far as `expected_seq` has
counted; `base` of the peer is at most `expected_seq`, and that at most its `next_seq`; everything on its way is a packet
of a submitted payload or an ACK of something accepted). Premise: what the transport corrupts, DECODE notices (U10). The
transport is the model's (log entry 16). -/
def Obligations.LinkStepKeepsInvariant : Prop :=
  ∀ (l l' : Link) (e : LinkEvent), LinkInv l → detectedCorruption e = true → linkStep l e = some l' → LinkInv l'

/-- The document's property E1 (R151): on a link whose endpoints start from reset together and whose transport keeps
order, may lose, and corrupts only so that DECODE notices (U10), what each application receives is a prefix of what
the peer's application submitted: no gap, no duplicate, in order, whatever is retransmitted. The transport is the
model's (log entry 16). -/
def Obligations.LinkDeliversInOrderExactlyOnce : Prop :=
  ∀ (cfgA cfgB : Config) (events : List LinkEvent) (l : Link),
    configLegal cfgA = true → configLegal cfgB = true →
    (∀ e ∈ events, detectedCorruption e = true) →
    linkRun (linkReset cfgA cfgB) events = some l →
    l.b.delivered <+: l.a.submitted ∧ l.a.delivered <+: l.b.submitted

/-- R174 with R151: when such a link is quiescent, everything submitted at one end has been delivered at the
other. The transport is the model's (log entry 16). -/
def Obligations.QuiescentLinkHasDeliveredEverything : Prop :=
  ∀ (cfgA cfgB : Config) (events : List LinkEvent) (l : Link),
    configLegal cfgA = true → configLegal cfgB = true →
    (∀ e ∈ events, detectedCorruption e = true) →
    linkRun (linkReset cfgA cfgB) events = some l → linkQuiescent l = true →
    l.b.delivered = l.a.submitted ∧ l.a.delivered = l.b.submitted
end

