-- ==== Sys2Proof/Laws/Checksum.lean ====
section
/-! SUPPORT. What FOLD, WORDS and CHECKSUM compute (40_checksum.md). -/

namespace Sys2Proof.Machine

theorem shiftRight16 (x : Nat) : x >>> 16 = x / 65536 := Nat.shiftRight_eq_div_pow x 16

theorem and_FFFF (x : Nat) : x &&& 0xFFFF = x % 65536 := Nat.and_two_pow_sub_one_eq_mod x 16

/-- With at least `x` passes the loop of R87 has ended: the result fits 16 bits, is `x` modulo `0xFFFF`, and is 0
only for 0. -/
theorem foldPasses_spec (n x : Nat) (h : x ≤ n) :
    foldPasses n x < 65536 ∧ foldPasses n x % 65535 = x % 65535 ∧ (foldPasses n x = 0 ↔ x = 0) := by
  induction n generalizing x with
  | zero =>
    obtain rfl : x = 0 := by omega
    simp [foldPasses]
  | succ n ih =>
    simp only [foldPasses, shiftRight16, and_FFFF]
    split
    · omega
    · have := ih (x % 65536 + x / 65536) (by omega)
      omega

/-- The result of FOLD fits 16 bits (R87). -/
theorem fold_lt (x : Nat) : fold x < 65536 := (foldPasses_spec x x le_rfl).1

/-- FOLD keeps a number modulo `0xFFFF` (R90). -/
theorem fold_mod (x : Nat) : fold x % 65535 = x % 65535 := (foldPasses_spec x x le_rfl).2.1

/-- FOLD answers 0 only for 0 (R90). -/
theorem fold_eq_zero (x : Nat) : fold x = 0 ↔ x = 0 := (foldPasses_spec x x le_rfl).2.2

/-- Two numbers fold alike exactly when they agree modulo `0xFFFF` and are zero together. -/
theorem fold_eq_fold (x y : Nat) : fold x = fold y ↔ x % 65535 = y % 65535 ∧ (x = 0 ↔ y = 0) := by
  have hx := foldPasses_spec x x le_rfl
  have hy := foldPasses_spec y y le_rfl
  simp only [fold] at *
  omega

/-- CHECKSUM as a number (R89: `(~acc) & 0xFFFF` is `0xFFFF - acc`). -/
theorem checksum_toNat (B : Bytes) : (checksum B).toNat = 65535 - fold (wordSum B) := by
  have h := fold_lt (wordSum B)
  simp only [checksum, BitVec.toNat_not, BitVec.toNat_ofNat]
  omega

theorem checksum_eq_iff (B : Bytes) (c : Word16) : checksum B = c ↔ 65535 - fold (wordSum B) = c.toNat := by
  rw [← checksum_toNat, BitVec.toNat_inj]

@[simp] theorem wordSum_nil : wordSum [] = 0 := rfl

@[simp] theorem wordSum_single (b : Byte) : wordSum [b] = b.toNat * 256 := by simp [wordSum, words]

@[simp] theorem wordSum_pair (b₀ b₁ : Byte) (rest : Bytes) :
    wordSum (b₀ :: b₁ :: rest) = b₀.toNat * 256 + b₁.toNat + wordSum rest := by
  simp [wordSum, words]

/-- A byte string after an even number of bytes is summed on its own. -/
theorem wordSum_append_even (A B : Bytes) (h : A.length % 2 = 0) : wordSum (A ++ B) = wordSum A + wordSum B := by
  induction A using words.induct with
  | case1 => simp
  | case2 b => simp at h
  | case3 b₀ b₁ rest ih =>
    have := ih (by simp only [List.length_cons] at h; omega)
    simp only [List.cons_append, wordSum_pair]
    omega

/-- The word sum counts each byte with weight 256 at an even offset and 1 at an odd one, so it is zero only for
zero bytes. -/
theorem wordSum_eq_zero (B : Bytes) : wordSum B = 0 ↔ ∀ b ∈ B, b = 0#8 := by
  induction B using words.induct with
  | case1 => simp
  | case2 b =>
    have : b = 0#8 ↔ b.toNat = 0 := by rw [← BitVec.toNat_inj]; rfl
    simp [this]
  | case3 b₀ b₁ rest ih =>
    have h0 : b₀ = 0#8 ↔ b₀.toNat = 0 := by rw [← BitVec.toNat_inj]; rfl
    have h1 : b₁ = 0#8 ↔ b₁.toNat = 0 := by rw [← BitVec.toNat_inj]; rfl
    simp only [wordSum_pair, List.forall_mem_cons, h0, h1, ← ih]
    omega

/-- Replacing one byte moves the word sum by the byte's change, weighted by its place in its word (R94). -/
theorem wordSum_set (B : Bytes) (i : Nat) (b : Byte) (h : i < B.length) :
    wordSum (B.set i b) + (B.getD i 0).toNat * (if i % 2 = 0 then 256 else 1) =
      wordSum B + b.toNat * (if i % 2 = 0 then 256 else 1) := by
  induction B using words.induct generalizing i with
  | case1 => simp at h
  | case2 c =>
    have : i = 0 := by simp at h; omega
    subst this; simp; omega
  | case3 b₀ b₁ rest ih =>
    match i with
    | 0 => simp; omega
    | 1 => simp; omega
    | i + 2 =>
      have := ih i (by simp only [List.length_cons] at h; omega)
      have hm : (i + 2) % 2 = i % 2 := by omega
      simp only [List.set_cons_succ, wordSum_pair, List.getD_cons_succ, hm]
      omega

end Sys2Proof.Machine
end

