-- ==== Sys2Proof/Laws/Codec.lean ====
section
/-! SUPPORT. The bytes of a packet, written and read back (30_encoding.md R60 to R66, 41_codec.md). -/

namespace Sys2Proof

theorem extract32_append (v : Word32) :
    v.extractLsb' 24 8 ++ v.extractLsb' 16 8 ++ v.extractLsb' 8 8 ++ v.extractLsb' 0 8 = v := by
  ext i hi
  simp only [BitVec.getElem_append, BitVec.getElem_extractLsb']
  split_ifs <;> simp [← BitVec.getLsbD_eq_getElem] <;> congr 1 <;> omega

theorem extract16_append (v : Word16) : v.extractLsb' 8 8 ++ v.extractLsb' 0 8 = v := by
  ext i hi
  simp only [BitVec.getElem_append, BitVec.getElem_extractLsb']
  split_ifs <;> simp [← BitVec.getLsbD_eq_getElem]
  congr 1; omega

/-- A big-endian pair of bytes as a number. -/
theorem append8_toNat (x y : Byte) : (x ++ y : BitVec 16).toNat = x.toNat * 256 + y.toNat := by
  rw [BitVec.toNat_append, ← Nat.shiftLeft_add_eq_or_of_lt y.isLt, Nat.shiftLeft_eq]

/-- `u16be` as a number (R7). -/
theorem u16be_toNat (B : Bytes) (i : Nat) :
    (u16be B i).toNat = (byteAt B i).toNat * 256 + (byteAt B (i + 1)).toNat := append8_toNat _ _

/-- `u32be` as a number (R7). -/
theorem u32be_toNat (B : Bytes) (i : Nat) :
    (u32be B i).toNat = (byteAt B i).toNat * 16777216 + (byteAt B (i + 1)).toNat * 65536 +
      (byteAt B (i + 2)).toNat * 256 + (byteAt B (i + 3)).toNat := by
  unfold u32be
  rw [BitVec.toNat_append, ← Nat.shiftLeft_add_eq_or_of_lt (byteAt B (i + 3)).isLt, Nat.shiftLeft_eq,
    BitVec.toNat_append, ← Nat.shiftLeft_add_eq_or_of_lt (byteAt B (i + 2)).isLt, Nat.shiftLeft_eq, append8_toNat]
  omega

/-- Writing what was read (R42): the four bytes of a 32-bit field. -/
theorem be32_u32be (B : Bytes) (i : Nat) :
    be32 (u32be B i) = [byteAt B i, byteAt B (i + 1), byteAt B (i + 2), byteAt B (i + 3)] := by
  have h := u32be_toNat B i
  have h0 := (byteAt B i).isLt
  have h1 := (byteAt B (i + 1)).isLt
  have h2 := (byteAt B (i + 2)).isLt
  have h3 := (byteAt B (i + 3)).isLt
  simp only [be32, List.cons.injEq, ← BitVec.toNat_inj, BitVec.extractLsb'_toNat, Nat.shiftRight_eq_div_pow, h]
  refine ⟨?_, ?_, ?_, ?_, trivial⟩ <;> omega

/-- Writing what was read (R42): the two bytes of the checksum field. -/
theorem be16_u16be (B : Bytes) (i : Nat) : be16 (u16be B i) = [byteAt B i, byteAt B (i + 1)] := by
  have h := u16be_toNat B i
  have h0 := (byteAt B i).isLt
  have h1 := (byteAt B (i + 1)).isLt
  simp only [be16, List.cons.injEq, ← BitVec.toNat_inj, BitVec.extractLsb'_toNat, Nat.shiftRight_eq_div_pow, h]
  refine ⟨?_, ?_, trivial⟩ <;> omega

/-- The bytes of a packet, one by one (R60). -/
theorem packetBytes_eq (seq ack : Word32) (c : Word16) (k : Bool) (payload : Bytes) :
    packetBytes seq ack c k payload =
      seq.extractLsb' 24 8 :: seq.extractLsb' 16 8 :: seq.extractLsb' 8 8 :: seq.extractLsb' 0 8 ::
      ack.extractLsb' 24 8 :: ack.extractLsb' 16 8 :: ack.extractLsb' 8 8 :: ack.extractLsb' 0 8 ::
      c.extractLsb' 8 8 :: c.extractLsb' 0 8 :: ackByte k ::
      (BitVec.ofNat 32 payload.length).extractLsb' 24 8 :: (BitVec.ofNat 32 payload.length).extractLsb' 16 8 ::
      (BitVec.ofNat 32 payload.length).extractLsb' 8 8 :: (BitVec.ofNat 32 payload.length).extractLsb' 0 8 ::
      payload := rfl

/-- An encoded packet is `15 + len(payload)` bytes long (R67). -/
@[simp] theorem packetBytes_length (seq ack : Word32) (c : Word16) (k : Bool) (payload : Bytes) :
    (packetBytes seq ack c k payload).length = headerLen + payload.length := by
  rw [packetBytes_eq]; simp [headerLen]; omega

theorem ackByte_ne_zero (k : Bool) : (ackByte k != 0#8) = k := by cases k <;> decide

/-- Reading back what was written, whatever the checksum field holds (R61 to R66). -/
theorem packetFields_packetBytes (seq ack : Word32) (c : Word16) (k : Bool) (payload : Bytes)
    (h : payload.length < fieldLimit) :
    packetFields (packetBytes seq ack c k payload) =
      { sequenceNumber := seq, acknowledgmentNumber := ack, checksum := c, isAck := k,
        payloadLength := BitVec.ofNat 32 payload.length, payload := payload } := by
  have hl : (BitVec.ofNat 32 payload.length).toNat = payload.length := by
    simpa using Nat.mod_eq_of_lt h
  rw [packetBytes_eq]
  simp only [packetFields, u32be, u16be, byteAt, List.getD_cons_zero, List.getD_cons_succ, headerLen,
    List.drop_succ_cons, List.drop_zero, extract32_append, extract16_append, hl, List.take_length,
    Nat.reduceAdd]
  simp only [show ∀ k, (ackByte k != 0) = k from ackByte_ne_zero]

theorem isTruncated_packetBytes (seq ack : Word32) (c : Word16) (k : Bool) (payload : Bytes)
    (h : payload.length < fieldLimit) : isTruncated (packetBytes seq ack c k payload) = false := by
  have hl := congrArg Packet.payloadLength (packetFields_packetBytes seq ack c k payload h)
  have ht : (BitVec.ofNat 32 payload.length).toNat = payload.length := by simpa using Nat.mod_eq_of_lt h
  simp only [packetFields] at hl
  simp [isTruncated, hl, ht]

theorem parsePacket_packetBytes (seq ack : Word32) (c : Word16) (k : Bool) (payload : Bytes)
    (h : payload.length < fieldLimit) :
    parsePacket (packetBytes seq ack c k payload) =
      some { sequenceNumber := seq, acknowledgmentNumber := ack, checksum := c, isAck := k,
             payloadLength := BitVec.ofNat 32 payload.length, payload := payload } := by
  simp [parsePacket, isTruncated_packetBytes, packetFields_packetBytes, h]

end Sys2Proof

namespace Sys2Proof.Machine

/-- Zeroing the checksum field of a packet (R102, R110). -/
theorem zeroChecksum_packetBytes (seq ack : Word32) (c : Word16) (k : Bool) (payload : Bytes) :
    zeroChecksum (packetBytes seq ack c k payload) = packetBytes seq ack 0 k payload := by
  rw [packetBytes_eq, packetBytes_eq]; rfl

/-- The word sum of received bytes is that of the zeroed bytes and the field (R93: offset 8 is even). -/
theorem wordSum_zeroChecksum (B : Bytes) (h : 10 ≤ B.length) :
    wordSum B = wordSum (zeroChecksum B) + (u16be B 8).toNat := by
  obtain ⟨b0, b1, b2, b3, b4, b5, b6, b7, b8, b9, rest, rfl⟩ :
      ∃ b0 b1 b2 b3 b4 b5 b6 b7 b8 b9, ∃ rest : Bytes,
        B = b0 :: b1 :: b2 :: b3 :: b4 :: b5 :: b6 :: b7 :: b8 :: b9 :: rest := by
    match B, h with
    | b0 :: b1 :: b2 :: b3 :: b4 :: b5 :: b6 :: b7 :: b8 :: b9 :: rest, _ => exact ⟨_, _, _, _, _, _, _, _, _, _, _, rfl⟩
  simp only [zeroChecksum, u16be_toNat, byteAt, List.take_succ_cons, List.take_zero, List.drop_succ_cons,
    List.drop_zero, List.cons_append, List.nil_append, wordSum_pair, List.getD_cons_succ, List.getD_cons_zero]
  simp
  omega

/-- An encoded packet is `15 + len(payload)` bytes long (R67, R102). -/
@[simp] theorem encodePacket_length (seq ack : Word32) (k : Bool) (payload : Bytes) :
    (encodePacket seq ack k payload).length = headerLen + payload.length := by simp [encodePacket]

/-- VERIFY accepts what ENCODE builds (R113: "the zeroed string VERIFY builds is Z itself"). -/
theorem verify_encodePacket (seq ack : Word32) (k : Bool) (payload : Bytes) (h : payload.length < fieldLimit) :
    verify (encodePacket seq ack k payload) = true := by
  have hc := congrArg Packet.checksum (packetFields_packetBytes seq ack
    (checksum (packetBytes seq ack 0 k payload)) k payload h)
  simp only [packetFields] at hc
  rw [verify, encodePacket, zeroChecksum_packetBytes, hc, beq_self_eq_true]

/-- What DECODE answers, by its two tests (R106, R107). -/
theorem decodePacket_cases (B : Bytes) :
    (isTruncated B = true ∧ decodePacket B = .err .truncated) ∨
    (isTruncated B = false ∧ verify B = false ∧ decodePacket B = .err .checksumMismatch) ∨
    (isTruncated B = false ∧ verify B = true ∧ decodePacket B = .ok (packetFields B)) := by
  unfold decodePacket parsePacket
  cases isTruncated B <;> cases verify B <;> simp

/-- The packet of an `Ok`. -/
theorem decodePacket_ok (B : Bytes) (p : Packet) (h : decodePacket B = .ok p) :
    p = packetFields B ∧ isTruncated B = false ∧ verify B = true := by
  obtain ⟨_, h'⟩ | ⟨_, _, h'⟩ | ⟨h1, h2, h'⟩ := decodePacket_cases B <;> simp_all

end Sys2Proof.Machine
end

