-- ==== Sys2Proof/Laws/State.lean ====
section
/-! SUPPORT. What each update of State leaves in each field: one lemma a field an update, true by rfl, so that no
later proof unfolds a record update. -/

namespace Sys2Proof.Machine

variable (s : State)

/-! ### emit (R165) -/

@[simp] theorem emit_base (a : Action) : (emit a s).base = s.base := rfl
@[simp] theorem emit_nextSeq (a : Action) : (emit a s).nextSeq = s.nextSeq := rfl
@[simp] theorem emit_inFlight (a : Action) : (emit a s).inFlight = s.inFlight := rfl
@[simp] theorem emit_pending (a : Action) : (emit a s).pending = s.pending := rfl
@[simp] theorem emit_expectedSeq (a : Action) : (emit a s).expectedSeq = s.expectedSeq := rfl
@[simp] theorem emit_lastAckSent (a : Action) : (emit a s).lastAckSent = s.lastAckSent := rfl
@[simp] theorem emit_timerArmed (a : Action) : (emit a s).timerArmed = s.timerArmed := rfl
@[simp] theorem emit_config (a : Action) : (emit a s).config = s.config := rfl
@[simp] theorem emit_inbox (a : Action) : (emit a s).inbox = s.inbox := rfl
@[simp] theorem emit_trace (a : Action) : (emit a s).trace = s.trace ++ [a] := rfl

/-! ### setPending (R25) -/

@[simp] theorem setPending_base (q : List Bytes) : (setPending q s).base = s.base := rfl
@[simp] theorem setPending_nextSeq (q : List Bytes) : (setPending q s).nextSeq = s.nextSeq := rfl
@[simp] theorem setPending_inFlight (q : List Bytes) : (setPending q s).inFlight = s.inFlight := rfl
@[simp] theorem setPending_pending (q : List Bytes) : (setPending q s).pending = q := rfl
@[simp] theorem setPending_expectedSeq (q : List Bytes) : (setPending q s).expectedSeq = s.expectedSeq := rfl
@[simp] theorem setPending_lastAckSent (q : List Bytes) : (setPending q s).lastAckSent = s.lastAckSent := rfl
@[simp] theorem setPending_timerArmed (q : List Bytes) : (setPending q s).timerArmed = s.timerArmed := rfl
@[simp] theorem setPending_config (q : List Bytes) : (setPending q s).config = s.config := rfl
@[simp] theorem setPending_inbox (q : List Bytes) : (setPending q s).inbox = s.inbox := rfl
@[simp] theorem setPending_trace (q : List Bytes) : (setPending q s).trace = s.trace := rfl
@[simp] theorem setPending_setPending (q r : List Bytes) : setPending q (setPending r s) = setPending q s := rfl
@[simp] theorem setPending_self : setPending s.pending s = s := rfl

/-! ### armTimer (R168) -/

@[simp] theorem armTimer_base (d : Duration) : (armTimer d s).base = s.base := rfl
@[simp] theorem armTimer_nextSeq (d : Duration) : (armTimer d s).nextSeq = s.nextSeq := rfl
@[simp] theorem armTimer_inFlight (d : Duration) : (armTimer d s).inFlight = s.inFlight := rfl
@[simp] theorem armTimer_pending (d : Duration) : (armTimer d s).pending = s.pending := rfl
@[simp] theorem armTimer_expectedSeq (d : Duration) : (armTimer d s).expectedSeq = s.expectedSeq := rfl
@[simp] theorem armTimer_lastAckSent (d : Duration) : (armTimer d s).lastAckSent = s.lastAckSent := rfl
@[simp] theorem armTimer_timerArmed (d : Duration) : (armTimer d s).timerArmed = true := rfl
@[simp] theorem armTimer_config (d : Duration) : (armTimer d s).config = s.config := rfl
@[simp] theorem armTimer_inbox (d : Duration) : (armTimer d s).inbox = s.inbox := rfl
@[simp] theorem armTimer_trace (d : Duration) : (armTimer d s).trace = s.trace ++ [.startTimer d] := rfl

/-! ### disarmTimer (R169) -/

@[simp] theorem disarmTimer_base : (disarmTimer s).base = s.base := rfl
@[simp] theorem disarmTimer_nextSeq : (disarmTimer s).nextSeq = s.nextSeq := rfl
@[simp] theorem disarmTimer_inFlight : (disarmTimer s).inFlight = s.inFlight := rfl
@[simp] theorem disarmTimer_pending : (disarmTimer s).pending = s.pending := rfl
@[simp] theorem disarmTimer_expectedSeq : (disarmTimer s).expectedSeq = s.expectedSeq := rfl
@[simp] theorem disarmTimer_lastAckSent : (disarmTimer s).lastAckSent = s.lastAckSent := rfl
@[simp] theorem disarmTimer_timerArmed : (disarmTimer s).timerArmed = false := rfl
@[simp] theorem disarmTimer_config : (disarmTimer s).config = s.config := rfl
@[simp] theorem disarmTimer_inbox : (disarmTimer s).inbox = s.inbox := rfl
@[simp] theorem disarmTimer_trace : (disarmTimer s).trace = s.trace ++ [.stopTimer] := rfl

/-! ### restartTimer (R168) -/

@[simp] theorem restartTimer_base : (restartTimer s).base = s.base := rfl
@[simp] theorem restartTimer_nextSeq : (restartTimer s).nextSeq = s.nextSeq := rfl
@[simp] theorem restartTimer_inFlight : (restartTimer s).inFlight = s.inFlight := rfl
@[simp] theorem restartTimer_pending : (restartTimer s).pending = s.pending := rfl
@[simp] theorem restartTimer_expectedSeq : (restartTimer s).expectedSeq = s.expectedSeq := rfl
@[simp] theorem restartTimer_lastAckSent : (restartTimer s).lastAckSent = s.lastAckSent := rfl
@[simp] theorem restartTimer_timerArmed : (restartTimer s).timerArmed = true := rfl
@[simp] theorem restartTimer_config : (restartTimer s).config = s.config := rfl
@[simp] theorem restartTimer_inbox : (restartTimer s).inbox = s.inbox := rfl
@[simp] theorem restartTimer_trace : (restartTimer s).trace = s.trace ++ [.startTimer s.config.timerInterval] := rfl

/-! ### timerFired (R136) -/

@[simp] theorem timerFired_base : (timerFired s).base = s.base := rfl
@[simp] theorem timerFired_nextSeq : (timerFired s).nextSeq = s.nextSeq := rfl
@[simp] theorem timerFired_inFlight : (timerFired s).inFlight = s.inFlight := rfl
@[simp] theorem timerFired_pending : (timerFired s).pending = s.pending := rfl
@[simp] theorem timerFired_expectedSeq : (timerFired s).expectedSeq = s.expectedSeq := rfl
@[simp] theorem timerFired_lastAckSent : (timerFired s).lastAckSent = s.lastAckSent := rfl
@[simp] theorem timerFired_timerArmed : (timerFired s).timerArmed = false := rfl
@[simp] theorem timerFired_config : (timerFired s).config = s.config := rfl
@[simp] theorem timerFired_inbox : (timerFired s).inbox = s.inbox := rfl
@[simp] theorem timerFired_trace : (timerFired s).trace = s.trace := rfl

/-! ### advanceBase (R132) -/

@[simp] theorem advanceBase_base (a : Nat) : (advanceBase a s).base = a + 1 := rfl
@[simp] theorem advanceBase_nextSeq (a : Nat) : (advanceBase a s).nextSeq = s.nextSeq := rfl
@[simp] theorem advanceBase_inFlight (a : Nat) : (advanceBase a s).inFlight = storeRemoveRange s.inFlight s.base a := rfl
@[simp] theorem advanceBase_pending (a : Nat) : (advanceBase a s).pending = s.pending := rfl
@[simp] theorem advanceBase_expectedSeq (a : Nat) : (advanceBase a s).expectedSeq = s.expectedSeq := rfl
@[simp] theorem advanceBase_lastAckSent (a : Nat) : (advanceBase a s).lastAckSent = s.lastAckSent := rfl
@[simp] theorem advanceBase_timerArmed (a : Nat) : (advanceBase a s).timerArmed = s.timerArmed := rfl
@[simp] theorem advanceBase_config (a : Nat) : (advanceBase a s).config = s.config := rfl
@[simp] theorem advanceBase_inbox (a : Nat) : (advanceBase a s).inbox = s.inbox := rfl
@[simp] theorem advanceBase_trace (a : Nat) : (advanceBase a s).trace = s.trace := rfl

/-! ### resendInFlight (R136) -/

@[simp] theorem resendInFlight_base : (resendInFlight s).base = s.base := rfl
@[simp] theorem resendInFlight_nextSeq : (resendInFlight s).nextSeq = s.nextSeq := rfl
@[simp] theorem resendInFlight_inFlight : (resendInFlight s).inFlight = s.inFlight := rfl
@[simp] theorem resendInFlight_pending : (resendInFlight s).pending = s.pending := rfl
@[simp] theorem resendInFlight_expectedSeq : (resendInFlight s).expectedSeq = s.expectedSeq := rfl
@[simp] theorem resendInFlight_lastAckSent : (resendInFlight s).lastAckSent = s.lastAckSent := rfl
@[simp] theorem resendInFlight_timerArmed : (resendInFlight s).timerArmed = s.timerArmed := rfl
@[simp] theorem resendInFlight_config : (resendInFlight s).config = s.config := rfl
@[simp] theorem resendInFlight_inbox : (resendInFlight s).inbox = s.inbox := rfl
@[simp] theorem resendInFlight_trace : (resendInFlight s).trace = s.trace ++ (storedRange s.inFlight s.base (s.nextSeq - s.base)).map .transmit := rfl

/-! ### beginCommand (R165) -/

@[simp] theorem beginCommand_base (rest : List Input) : (beginCommand rest s).base = s.base := rfl
@[simp] theorem beginCommand_nextSeq (rest : List Input) : (beginCommand rest s).nextSeq = s.nextSeq := rfl
@[simp] theorem beginCommand_inFlight (rest : List Input) : (beginCommand rest s).inFlight = s.inFlight := rfl
@[simp] theorem beginCommand_pending (rest : List Input) : (beginCommand rest s).pending = s.pending := rfl
@[simp] theorem beginCommand_expectedSeq (rest : List Input) : (beginCommand rest s).expectedSeq = s.expectedSeq := rfl
@[simp] theorem beginCommand_lastAckSent (rest : List Input) : (beginCommand rest s).lastAckSent = s.lastAckSent := rfl
@[simp] theorem beginCommand_timerArmed (rest : List Input) : (beginCommand rest s).timerArmed = s.timerArmed := rfl
@[simp] theorem beginCommand_config (rest : List Input) : (beginCommand rest s).config = s.config := rfl
@[simp] theorem beginCommand_inbox (rest : List Input) : (beginCommand rest s).inbox = rest := rfl
@[simp] theorem beginCommand_trace (rest : List Input) : (beginCommand rest s).trace = [] := rfl

/-! ### placeWord (R160) -/

@[simp] theorem placeWord_base (w : PortWord) : (placeWord w s).base = s.base := rfl
@[simp] theorem placeWord_nextSeq (w : PortWord) : (placeWord w s).nextSeq = s.nextSeq := rfl
@[simp] theorem placeWord_inFlight (w : PortWord) : (placeWord w s).inFlight = s.inFlight := rfl
@[simp] theorem placeWord_pending (w : PortWord) : (placeWord w s).pending = s.pending := rfl
@[simp] theorem placeWord_expectedSeq (w : PortWord) : (placeWord w s).expectedSeq = s.expectedSeq := rfl
@[simp] theorem placeWord_lastAckSent (w : PortWord) : (placeWord w s).lastAckSent = s.lastAckSent := rfl
@[simp] theorem placeWord_timerArmed (w : PortWord) : (placeWord w s).timerArmed = s.timerArmed := rfl
@[simp] theorem placeWord_config (w : PortWord) : (placeWord w s).config = s.config := rfl
@[simp] theorem placeWord_inbox (w : PortWord) : (placeWord w s).inbox = .word w :: s.inbox := rfl
@[simp] theorem placeWord_trace (w : PortWord) : (placeWord w s).trace = s.trace := rfl

/-! ### takeCorruption (R147) -/

@[simp] theorem takeCorruption_base (e : CorruptionError) : (takeCorruption e s).base = s.base := rfl
@[simp] theorem takeCorruption_nextSeq (e : CorruptionError) : (takeCorruption e s).nextSeq = s.nextSeq := rfl
@[simp] theorem takeCorruption_inFlight (e : CorruptionError) : (takeCorruption e s).inFlight = s.inFlight := rfl
@[simp] theorem takeCorruption_pending (e : CorruptionError) : (takeCorruption e s).pending = s.pending := rfl
@[simp] theorem takeCorruption_expectedSeq (e : CorruptionError) : (takeCorruption e s).expectedSeq = s.expectedSeq := rfl
@[simp] theorem takeCorruption_lastAckSent (e : CorruptionError) : (takeCorruption e s).lastAckSent = s.lastAckSent := rfl
@[simp] theorem takeCorruption_timerArmed (e : CorruptionError) : (takeCorruption e s).timerArmed = s.timerArmed := rfl
@[simp] theorem takeCorruption_config (e : CorruptionError) : (takeCorruption e s).config = s.config := rfl
@[simp] theorem takeCorruption_inbox (e : CorruptionError) : (takeCorruption e s).inbox = s.inbox := rfl
@[simp] theorem takeCorruption_trace (e : CorruptionError) : (takeCorruption e s).trace = s.trace ++ [.transmit s.lastAckSent] := rfl

/-! ### repeatAck (R149) -/

@[simp] theorem repeatAck_base : (repeatAck s).base = s.base := rfl
@[simp] theorem repeatAck_nextSeq : (repeatAck s).nextSeq = s.nextSeq := rfl
@[simp] theorem repeatAck_inFlight : (repeatAck s).inFlight = s.inFlight := rfl
@[simp] theorem repeatAck_pending : (repeatAck s).pending = s.pending := rfl
@[simp] theorem repeatAck_expectedSeq : (repeatAck s).expectedSeq = s.expectedSeq := rfl
@[simp] theorem repeatAck_lastAckSent : (repeatAck s).lastAckSent = s.lastAckSent := rfl
@[simp] theorem repeatAck_timerArmed : (repeatAck s).timerArmed = s.timerArmed := rfl
@[simp] theorem repeatAck_config : (repeatAck s).config = s.config := rfl
@[simp] theorem repeatAck_inbox : (repeatAck s).inbox = s.inbox := rfl
@[simp] theorem repeatAck_trace : (repeatAck s).trace = s.trace ++ [.transmit s.lastAckSent] := rfl

/-! ### acceptData (R148) -/

@[simp] theorem acceptData_base (p : Packet) : (acceptData p s).base = s.base := rfl
@[simp] theorem acceptData_nextSeq (p : Packet) : (acceptData p s).nextSeq = s.nextSeq := rfl
@[simp] theorem acceptData_inFlight (p : Packet) : (acceptData p s).inFlight = s.inFlight := rfl
@[simp] theorem acceptData_pending (p : Packet) : (acceptData p s).pending = s.pending := rfl
@[simp] theorem acceptData_expectedSeq (p : Packet) : (acceptData p s).expectedSeq = s.expectedSeq + 1 := rfl
@[simp] theorem acceptData_lastAckSent (p : Packet) : (acceptData p s).lastAckSent = ackPacket p.sequenceNumber := rfl
@[simp] theorem acceptData_timerArmed (p : Packet) : (acceptData p s).timerArmed = s.timerArmed := rfl
@[simp] theorem acceptData_config (p : Packet) : (acceptData p s).config = s.config := rfl
@[simp] theorem acceptData_inbox (p : Packet) : (acceptData p s).inbox = s.inbox := rfl
@[simp] theorem acceptData_trace (p : Packet) : (acceptData p s).trace = s.trace ++ [.deliver p.payload] ++ [.transmit (ackPacket p.sequenceNumber)] := rfl

/-! ### sendPacket (R123) -/

@[simp] theorem sendPacket_base (p : Bytes) : (sendPacket p s).base = s.base := by
  unfold sendPacket; cases nothingOutstanding s <;> rfl
@[simp] theorem sendPacket_nextSeq (p : Bytes) : (sendPacket p s).nextSeq = s.nextSeq + 1 := by
  unfold sendPacket; cases nothingOutstanding s <;> rfl
@[simp] theorem sendPacket_inFlight (p : Bytes) :
    (sendPacket p s).inFlight = storeInsert s.inFlight s.nextSeq (dataPacket s.nextSeq p) := by
  unfold sendPacket; cases nothingOutstanding s <;> rfl
@[simp] theorem sendPacket_pending (p : Bytes) : (sendPacket p s).pending = s.pending := by
  unfold sendPacket; cases nothingOutstanding s <;> rfl
@[simp] theorem sendPacket_expectedSeq (p : Bytes) : (sendPacket p s).expectedSeq = s.expectedSeq := by
  unfold sendPacket; cases nothingOutstanding s <;> rfl
@[simp] theorem sendPacket_lastAckSent (p : Bytes) : (sendPacket p s).lastAckSent = s.lastAckSent := by
  unfold sendPacket; cases nothingOutstanding s <;> rfl
@[simp] theorem sendPacket_config (p : Bytes) : (sendPacket p s).config = s.config := by
  unfold sendPacket; cases nothingOutstanding s <;> rfl
@[simp] theorem sendPacket_inbox (p : Bytes) : (sendPacket p s).inbox = s.inbox := by
  unfold sendPacket; cases nothingOutstanding s <;> rfl
@[simp] theorem sendPacket_timerArmed (p : Bytes) :
    (sendPacket p s).timerArmed = (nothingOutstanding s || s.timerArmed) := by
  unfold sendPacket; cases nothingOutstanding s <;> rfl
@[simp] theorem sendPacket_trace (p : Bytes) :
    (sendPacket p s).trace = s.trace ++ (.transmit (dataPacket s.nextSeq p) ::
      if nothingOutstanding s then [.startTimer s.config.timerInterval] else []) := by
  unfold sendPacket; cases h : nothingOutstanding s <;> simp [restartTimer, armTimer, emit]

/-! ### closeAck (R134) -/

@[simp] theorem closeAck_base : (closeAck s).base = s.base := by
  unfold closeAck; split <;> rfl
@[simp] theorem closeAck_nextSeq : (closeAck s).nextSeq = s.nextSeq := by
  unfold closeAck; split <;> rfl
@[simp] theorem closeAck_inFlight : (closeAck s).inFlight = s.inFlight := by
  unfold closeAck; split <;> rfl
@[simp] theorem closeAck_pending : (closeAck s).pending = s.pending := by
  unfold closeAck; split <;> rfl
@[simp] theorem closeAck_expectedSeq : (closeAck s).expectedSeq = s.expectedSeq := by
  unfold closeAck; split <;> rfl
@[simp] theorem closeAck_lastAckSent : (closeAck s).lastAckSent = s.lastAckSent := by
  unfold closeAck; split <;> rfl
@[simp] theorem closeAck_config : (closeAck s).config = s.config := by
  unfold closeAck; split <;> rfl
@[simp] theorem closeAck_inbox : (closeAck s).inbox = s.inbox := by
  unfold closeAck; split <;> rfl
@[simp] theorem closeAck_timerArmed : (closeAck s).timerArmed = !nothingOutstanding s := by
  unfold closeAck; cases nothingOutstanding s <;> rfl
@[simp] theorem closeAck_trace : (closeAck s).trace =
    s.trace ++ [if nothingOutstanding s then .stopTimer else .startTimer s.config.timerInterval] := by
  unfold closeAck; cases nothingOutstanding s <;> rfl

/-! ### onTimeout (R136) -/

@[simp] theorem onTimeout_base : (onTimeout s).base = s.base := by
  unfold onTimeout; dsimp only; split <;> rfl
@[simp] theorem onTimeout_nextSeq : (onTimeout s).nextSeq = s.nextSeq := by
  unfold onTimeout; dsimp only; split <;> rfl
@[simp] theorem onTimeout_inFlight : (onTimeout s).inFlight = s.inFlight := by
  unfold onTimeout; dsimp only; split <;> rfl
@[simp] theorem onTimeout_pending : (onTimeout s).pending = s.pending := by
  unfold onTimeout; dsimp only; split <;> rfl
@[simp] theorem onTimeout_expectedSeq : (onTimeout s).expectedSeq = s.expectedSeq := by
  unfold onTimeout; dsimp only; split <;> rfl
@[simp] theorem onTimeout_lastAckSent : (onTimeout s).lastAckSent = s.lastAckSent := by
  unfold onTimeout; dsimp only; split <;> rfl
@[simp] theorem onTimeout_config : (onTimeout s).config = s.config := by
  unfold onTimeout; dsimp only; split <;> rfl
@[simp] theorem onTimeout_inbox : (onTimeout s).inbox = s.inbox := by
  unfold onTimeout; dsimp only; split <;> rfl
@[simp] theorem onTimeout_timerArmed : (onTimeout s).timerArmed = !nothingOutstanding s := by
  have : nothingOutstanding (timerFired s) = nothingOutstanding s := rfl
  unfold onTimeout; dsimp only; rw [this]; cases nothingOutstanding s <;> rfl

/-- Two states with the same fields are the same state. -/
theorem state_ext {s t : State} (h1 : s.base = t.base) (h2 : s.nextSeq = t.nextSeq) (h3 : s.inFlight = t.inFlight)
    (h4 : s.pending = t.pending) (h5 : s.expectedSeq = t.expectedSeq) (h6 : s.lastAckSent = t.lastAckSent)
    (h7 : s.timerArmed = t.timerArmed) (h8 : s.config = t.config) (h9 : s.inbox = t.inbox)
    (h10 : s.trace = t.trace) : s = t := by
  cases s; cases t; simp_all

end Sys2Proof.Machine
end

