-- ==== Sys2Proof/Laws/Ops.lean ====
section
/-! SUPPORT. The in-flight store (10_state.md R22) and the sequencing of parts of a command. -/

namespace Sys2Proof.Machine

/-! ## Outcomes -/

@[simp] theorem andThen_next (s : State) (f : State → Result) : andThen (.next s) f = f s := rfl
@[simp] theorem andThen_refused (r : Refusal) (f : State → Result) : andThen (.refused r) f = .refused r := rfl

/-- A sequence answers a next state exactly when both parts do. -/
theorem andThen_eq_next (r : Result) (f : State → Result) (t : State) :
    andThen r f = .next t ↔ ∃ u, r = .next u ∧ f u = .next t := by
  cases r <;> simp [andThen]

/-- A sequence is refused when one of its parts is. -/
theorem andThen_eq_refused (r : Result) (f : State → Result) (e : Refusal) :
    andThen r f = .refused e ↔ r = .refused e ∨ ∃ u, r = .next u ∧ f u = .refused e := by
  cases r <;> simp [andThen]

/-- Whatever is not refused is a next state: there is no fault (R187). -/
theorem next_or_refused (r : Result) : (∃ t, r = .next t) ∨ ∃ e, r = .refused e := by
  cases r with
  | next t => exact .inl ⟨t, rfl⟩
  | fault e => cases e
  | refused e => exact .inr ⟨e, rfl⟩

/-! ## The store -/

theorem storeRead_insert_same (m : List (Nat × Bytes)) (k : Nat) (v : Bytes) :
    storeRead (storeInsert m k v) k = some v := by
  induction m with
  | nil => simp [storeInsert, storeRead]
  | cons e m ih =>
    simp only [storeInsert]
    split_ifs with h1 h2
    · simp [storeRead]
    · simp [storeRead]
    · simp [storeRead, h2, ih]

theorem storeRead_insert_other (m : List (Nat × Bytes)) (k j : Nat) (v : Bytes) (h : j ≠ k) :
    storeRead (storeInsert m k v) j = storeRead m j := by
  induction m with
  | nil => simp [storeInsert, storeRead, h]
  | cons e m ih =>
    simp only [storeInsert]
    split_ifs with h1 h2
    · simp [storeRead, h]
    · subst h2; simp [storeRead, h]
    · simp [storeRead, ih]

theorem storeRead_removeRange (m : List (Nat × Bytes)) (lo hi k : Nat) :
    storeRead (storeRemoveRange m lo hi) k = if lo ≤ k ∧ k ≤ hi then none else storeRead m k := by
  induction m with
  | nil => simp [storeRemoveRange, storeRead]
  | cons e m ih =>
    obtain ⟨k', v⟩ := e
    simp only [storeRemoveRange] at ih
    by_cases he : lo ≤ k' ∧ k' ≤ hi
    · have : storeRemoveRange ((k', v) :: m) lo hi = storeRemoveRange m lo hi := by
        simp [storeRemoveRange, he]
      rw [this, storeRemoveRange, ih]
      split_ifs with hk
      · rfl
      · have : k ≠ k' := by rintro rfl; exact hk he
        simp [storeRead, this]
    · have : storeRemoveRange ((k', v) :: m) lo hi = (k', v) :: storeRemoveRange m lo hi := by
        simp only [storeRemoveRange, List.filter_cons]
        rw [if_pos (by simp; omega)]
      rw [this, storeRead, storeRemoveRange, ih]
      by_cases hk : k = k'
      · subst hk; simp [he, storeRead]
      · simp [hk, storeRead]

theorem storeInsert_keys_mem (m : List (Nat × Bytes)) (k j : Nat) (v : Bytes)
    (h : j ∈ (storeInsert m k v).map Prod.fst) : j = k ∨ j ∈ m.map Prod.fst := by
  induction m with
  | nil => simp_all [storeInsert]
  | cons e m ih =>
    simp only [storeInsert] at h
    split_ifs at h with h1 h2
    · simpa using h
    · simp only [List.map_cons, List.mem_cons] at h ⊢; tauto
    · simp only [List.map_cons, List.mem_cons] at h ⊢; tauto

/-- Insertion keeps the canonical form. -/
theorem storeWf_insert (m : List (Nat × Bytes)) (k : Nat) (v : Bytes) (h : storeWf m = true) :
    storeWf (storeInsert m k v) = true := by
  simp only [storeWf, decide_eq_true_eq] at *
  induction m with
  | nil => simp [storeInsert]
  | cons e m ih =>
    simp only [List.map_cons, List.pairwise_cons] at h
    simp only [storeInsert]
    split_ifs with h1 h2
    · simp only [List.map_cons, List.pairwise_cons, List.mem_cons]
      refine ⟨?_, h⟩
      rintro j (rfl | hj)
      · exact h1
      · exact h1.trans (h.1 j hj)
    · subst h2; simpa using h
    · simp only [List.map_cons, List.pairwise_cons]
      refine ⟨fun j hj => ?_, ih h.2⟩
      obtain rfl | hj := storeInsert_keys_mem m k j v hj
      · omega
      · exact h.1 j hj

/-- Removal keeps the canonical form. -/
theorem storeWf_removeRange (m : List (Nat × Bytes)) (lo hi : Nat) (h : storeWf m = true) :
    storeWf (storeRemoveRange m lo hi) = true := by
  simp only [storeWf, decide_eq_true_eq] at *
  exact h.sublist (List.filter_sublist.map _)

/-- A key above all others goes to the end. -/
theorem storeInsert_append (m : List (Nat × Bytes)) (k : Nat) (v : Bytes) (h : ∀ e ∈ m, e.1 < k) :
    storeInsert m k v = m ++ [(k, v)] := by
  induction m with
  | nil => rfl
  | cons e m ih =>
    have he := h e (by simp)
    have := ih fun e' h' => h e' (by simp [h'])
    simp only [storeInsert, List.cons_append, this]
    rw [if_neg (by omega), if_neg (by omega)]

/-- In canonical form, every entry is what its key reads. -/
theorem storeRead_of_mem (m : List (Nat × Bytes)) (h : storeWf m = true) (k : Nat) (v : Bytes)
    (hm : (k, v) ∈ m) : storeRead m k = some v := by
  simp only [storeWf, decide_eq_true_eq] at h
  induction m with
  | nil => simp at hm
  | cons e m ih =>
    simp only [List.map_cons, List.pairwise_cons] at h
    rw [List.mem_cons] at hm
    obtain rfl | hm := hm
    · simp [storeRead]
    · have : e.1 < k := h.1 k (List.mem_map.2 ⟨(k, v), hm, rfl⟩)
      simp only [storeRead]
      rw [if_neg (by omega)]
      exact ih hm h.2

/-- A key that reads is an entry. -/
theorem mem_of_storeRead (m : List (Nat × Bytes)) (k : Nat) (v : Bytes) (h : storeRead m k = some v) :
    (k, v) ∈ m := by
  induction m with
  | nil => simp [storeRead] at h
  | cons e m ih =>
    simp only [storeRead] at h
    split_ifs at h with hk
    · simp only [Option.some.injEq] at h; subst hk h; simp
    · exact List.mem_cons_of_mem _ (ih h)

/-- When the keys are `lo .. lo + n - 1`, the range read of R136 is every entry in order. -/
theorem storedRange_eq (m : List (Nat × Bytes)) (lo n : Nat) (h : m.map Prod.fst = List.range' lo n) :
    storedRange m lo n = m.map Prod.snd := by
  have hw : storeWf m = true := by
    simp only [storeWf, decide_eq_true_eq, h]; exact List.pairwise_lt_range'
  rw [storedRange, ← h, List.filterMap_map]
  have : ∀ l : List (Nat × Bytes), (∀ e ∈ l, e ∈ m) →
      l.filterMap (storeRead m ∘ Prod.fst) = l.map Prod.snd := by
    intro l hl
    induction l with
    | nil => rfl
    | cons e l ih =>
      have he := storeRead_of_mem m hw e.1 e.2 (hl e (by simp))
      rw [List.filterMap_cons, Function.comp_apply, he, List.map_cons, ih fun e' h' => hl e' (by simp [h'])]
  exact this m fun _ h => h

end Sys2Proof.Machine
end

