-- ==== Sys2Proof/Laws/PerInstr.lean ====
section
/-! SUPPORT. One fact an instruction: the encoder puts it on the port whose format its row of the opcode table
has (30_encoding.md R71, R72, R74). -/

namespace Sys2Proof.Laws.EncodePort

/-- The "format" column of the opcode table: PKT, CMD or ACT. -/
def tableFormat : Instr → String
  | .pktData _ => "PKT"
  | .pktAck _ => "PKT"
  | .submit _ => "CMD"
  | .rx _ => "CMD"
  | .timeout => "CMD"
  | .cmdReserved _ => "CMD"
  | .transmit _ => "ACT"
  | .deliver _ => "ACT"
  | .startTimer _ => "ACT"
  | .stopTimer => "ACT"

/-- The format of a port word. -/
def wordFormat : PortWord → String
  | .packet _ => "PKT"
  | .command _ _ => "CMD"
  | .action _ _ _ => "ACT"

/-- The encoder and the table agree on the port. -/
def Statement (i : Instr) : Prop := wordFormat (encode i) = tableFormat i

theorem pktData (p : Packet) : Statement (.pktData p) := rfl
theorem pktAck (p : Packet) : Statement (.pktAck p) := rfl
theorem submit (payload : Bytes) : Statement (.submit payload) := rfl
theorem rx (bytes : Bytes) : Statement (.rx bytes) := rfl
theorem timeout : Statement .timeout := rfl
theorem cmdReserved (operand : Bytes) : Statement (.cmdReserved operand) := rfl
theorem transmit (bytes : Bytes) : Statement (.transmit bytes) := rfl
theorem deliver (payload : Bytes) : Statement (.deliver payload) := rfl
theorem startTimer (d : Duration) : Statement (.startTimer d) := rfl
theorem stopTimer : Statement .stopTimer := rfl

end Sys2Proof.Laws.EncodePort
end

