-- ==== Sys2Proof/Laws/Sender.lean ====
section
/-! SUPPORT. Everything the sender's operations can do, said once each (42_sender.md). -/

namespace Sys2Proof.Machine

open Sys2Proof.Safety

/-! ## SEND_NEW -/

/-- When SEND_NEW answers a next state, and which (R123 to R125). -/
theorem sendNew_eq_next (p : Bytes) (s t : State) :
    sendNew p s = .next t ↔
      s.nextSeq < fieldLimit ∧ p.length ≤ s.config.maxPayload ∧ t = sendPacket p s := by
  unfold sendNew
  split_ifs with h1 h2
  · simp; omega
  · simp; omega
  · simp only [Host.Outcome.next.injEq]
    exact ⟨fun h => ⟨by omega, by omega, h.symm⟩, fun h => h.2.2.symm⟩

/-- SEND_NEW is refused by R124, else by R125. -/
theorem sendNew_eq_refused (p : Bytes) (s : State) (r : Refusal) :
    sendNew p s = .refused r ↔
      (fieldLimit ≤ s.nextSeq ∧ r = .sequenceNumbersExhausted) ∨
      (s.nextSeq < fieldLimit ∧ s.config.maxPayload < p.length ∧ r = .payloadTooLong) := by
  unfold sendNew
  split_ifs with h1 h2
  · simp [h1, eq_comm]
  · simp [h1, h2, eq_comm] ; omega
  · simp [h1, h2]

theorem nothingOutstanding_setPending (q : List Bytes) (s : State) :
    nothingOutstanding (setPending q s) = nothingOutstanding s := rfl

theorem sendPacket_setPending (p : Bytes) (q : List Bytes) (s : State) :
    sendPacket p (setPending q s) = setPending q (sendPacket p s) := by
  unfold sendPacket
  rw [nothingOutstanding_setPending]
  cases nothingOutstanding s <;> rfl

/-! ## Several payloads in a row -/

/-- SEND_NEW's effect for each payload of a list, in order. -/
def sendAll (payloads : List Bytes) (s : State) : State := payloads.foldl (fun t p => sendPacket p t) s

@[simp] theorem sendAll_nil (s : State) : sendAll [] s = s := rfl
@[simp] theorem sendAll_cons (p : Bytes) (ps : List Bytes) (s : State) :
    sendAll (p :: ps) s = sendAll ps (sendPacket p s) := rfl

theorem sendAll_setPending (ps q : List Bytes) (s : State) :
    sendAll ps (setPending q s) = setPending q (sendAll ps s) := by
  induction ps generalizing s with
  | nil => rfl
  | cons p ps ih => rw [sendAll_cons, sendPacket_setPending, ih, sendAll_cons]

@[simp] theorem sendAll_base (ps : List Bytes) (s : State) : (sendAll ps s).base = s.base := by
  induction ps generalizing s with
  | nil => rfl
  | cons p ps ih => simp [ih]

@[simp] theorem sendAll_nextSeq (ps : List Bytes) (s : State) :
    (sendAll ps s).nextSeq = s.nextSeq + ps.length := by
  induction ps generalizing s with
  | nil => rfl
  | cons p ps ih => simp [ih]; omega

@[simp] theorem sendAll_pending (ps : List Bytes) (s : State) : (sendAll ps s).pending = s.pending := by
  induction ps generalizing s with
  | nil => rfl
  | cons p ps ih => simp [ih]

@[simp] theorem sendAll_expectedSeq (ps : List Bytes) (s : State) :
    (sendAll ps s).expectedSeq = s.expectedSeq := by
  induction ps generalizing s with
  | nil => rfl
  | cons p ps ih => simp [ih]

@[simp] theorem sendAll_lastAckSent (ps : List Bytes) (s : State) :
    (sendAll ps s).lastAckSent = s.lastAckSent := by
  induction ps generalizing s with
  | nil => rfl
  | cons p ps ih => simp [ih]

@[simp] theorem sendAll_config (ps : List Bytes) (s : State) : (sendAll ps s).config = s.config := by
  induction ps generalizing s with
  | nil => rfl
  | cons p ps ih => simp [ih]

@[simp] theorem sendAll_inbox (ps : List Bytes) (s : State) : (sendAll ps s).inbox = s.inbox := by
  induction ps generalizing s with
  | nil => rfl
  | cons p ps ih => simp [ih]

/-- With every key below `next_seq`, the new packets stand at the end of the store, in order. -/
theorem sendAll_inFlight (ps : List Bytes) (s : State) (h : ∀ e ∈ s.inFlight, e.1 < s.nextSeq) :
    (sendAll ps s).inFlight = s.inFlight ++ numberedPackets s.nextSeq ps := by
  induction ps generalizing s with
  | nil => simp [numberedPackets]
  | cons p ps ih =>
    have hi := storeInsert_append s.inFlight s.nextSeq (dataPacket s.nextSeq p) h
    rw [sendAll_cons, ih]
    · simp [numberedPackets, hi]
    · intro e he
      simp only [sendPacket_inFlight, hi, sendPacket_nextSeq, List.mem_append, List.mem_singleton] at he ⊢
      obtain he | rfl := he
      · have := h e he; omega
      · simp

/-- A key outside the new numbers reads as before. -/
theorem sendAll_storeRead (ps : List Bytes) (s : State) (k : Nat)
    (h : k < s.nextSeq ∨ s.nextSeq + ps.length ≤ k) :
    storeRead (sendAll ps s).inFlight k = storeRead s.inFlight k := by
  induction ps generalizing s with
  | nil => rfl
  | cons p ps ih =>
    simp only [List.length_cons] at h
    rw [sendAll_cons, ih _ (by simp only [sendPacket_nextSeq]; omega), sendPacket_inFlight,
      storeRead_insert_other _ _ _ _ (by omega)]

theorem numberedPackets_keys (n : Nat) (ps : List Bytes) :
    (numberedPackets n ps).map Prod.fst = List.range' n ps.length := by
  induction ps generalizing n with
  | nil => rfl
  | cons p ps ih => simp [numberedPackets, ih, List.range'_succ]

theorem numberedPackets_mem (n : Nat) (ps : List Bytes) (e : Nat × Bytes) (h : e ∈ numberedPackets n ps) :
    ∃ p ∈ ps, e.2 = dataPacket e.1 p := by
  induction ps generalizing n with
  | nil => simp [numberedPackets] at h
  | cons p ps ih =>
    simp only [numberedPackets, List.mem_cons] at h
    obtain rfl | h := h
    · exact ⟨p, by simp, rfl⟩
    · obtain ⟨q, hq, hq'⟩ := ih _ h
      exact ⟨q, by simp [hq], hq'⟩

theorem numberedPackets_length (n : Nat) (ps : List Bytes) : (numberedPackets n ps).length = ps.length := by
  simpa using congrArg List.length (numberedPackets_keys n ps)

/-- Packets sent while something is in flight: a TRANSMIT each and no timer action (R123). -/
theorem sendAll_trace_outstanding (ps : List Bytes) (s : State) (h : s.base < s.nextSeq) :
    (sendAll ps s).trace = s.trace ++ ((numberedPackets s.nextSeq ps).map Prod.snd).map .transmit := by
  induction ps generalizing s with
  | nil => simp [numberedPackets]
  | cons p ps ih =>
    have hn : nothingOutstanding s = false := by simp [nothingOutstanding]; omega
    rw [sendAll_cons, ih _ (by simp; omega)]
    simp [numberedPackets, hn]

/-- The trace of packets sent in a row (R133): `drainActions`. -/
theorem sendAll_trace (ps : List Bytes) (s : State) (h : s.base ≤ s.nextSeq) :
    (sendAll ps s).trace = s.trace ++ drainActions s.config.timerInterval (nothingOutstanding s)
      ((numberedPackets s.nextSeq ps).map Prod.snd) := by
  cases ps with
  | nil => simp [numberedPackets, drainActions]
  | cons p ps =>
    rw [sendAll_cons, sendAll_trace_outstanding _ _ (by simp; omega)]
    simp [numberedPackets, drainActions]

/-- The mirror bit after packets sent in a row. -/
theorem sendAll_timerArmed (ps : List Bytes) (s : State) (h : s.base ≤ s.nextSeq) :
    (sendAll ps s).timerArmed = (s.timerArmed || (nothingOutstanding s && !ps.isEmpty)) := by
  have key : ∀ (ps : List Bytes) (s : State), s.base < s.nextSeq → (sendAll ps s).timerArmed = s.timerArmed := by
    intro ps
    induction ps with
    | nil => intros; rfl
    | cons p ps ih =>
      intro s h
      have hn : nothingOutstanding s = false := by simp [nothingOutstanding]; omega
      rw [sendAll_cons, ih _ (by simp; omega)]
      simp [hn]
  cases ps with
  | nil => simp
  | cons p ps =>
    rw [sendAll_cons, key _ _ (by simp; omega)]
    simp [Bool.or_comm]

/-- Sending never shortens the trace that was there. -/
theorem sendAll_trace_exists (ps : List Bytes) (s : State) :
    ∃ extra, (sendAll ps s).trace = s.trace ++ extra ∧ traceDelivers extra = [] := by
  induction ps generalizing s with
  | nil => exact ⟨[], by simp, rfl⟩
  | cons p ps ih =>
    obtain ⟨extra, h1, h2⟩ := ih (sendPacket p s)
    refine ⟨(.transmit (dataPacket s.nextSeq p) ::
      if nothingOutstanding s then [.startTimer s.config.timerInterval] else []) ++ extra, ?_, ?_⟩
    · rw [sendAll_cons, h1, sendPacket_trace, List.append_assoc]
    · rw [traceDelivers] at h2
      cases nothingOutstanding s <;> simp [traceDelivers, h2]

/-! ## The drain -/

/-- What a drain that answers a next state has done (R133): it sent the first `k` waiting payloads, each with the
window open and within R124 and R125, and stopped with nothing waiting or the window full. -/
theorem drainQueue_next (queue : List Bytes) (s t : State) (h : drainQueue queue s = .next t) :
    ∃ k ≤ queue.length, t = setPending (queue.drop k) (sendAll (queue.take k) s) ∧
      (∀ p ∈ queue.take k, p.length ≤ s.config.maxPayload) ∧
      (k = 0 ∨ (s.nextSeq + k ≤ fieldLimit ∧ s.nextSeq + k - 1 - s.base < s.config.windowSize)) ∧
      (queue.drop k = [] ∨ s.config.windowSize ≤ s.nextSeq + k - s.base) := by
  induction queue generalizing s with
  | nil =>
    simp only [drainQueue, Host.Outcome.next.injEq] at h
    exact ⟨0, le_rfl, h.symm, by simp, .inl rfl, .inl rfl⟩
  | cons p rest ih =>
    simp only [drainQueue] at h
    split_ifs at h with hw
    · rw [andThen_eq_next] at h
      obtain ⟨u, hu, ht⟩ := h
      obtain ⟨hn, hl, rfl⟩ := (sendNew_eq_next _ _ _).1 hu
      rw [sendPacket_setPending] at ht
      obtain ⟨k, hk, rfl, h1, h2, h3⟩ := ih _ ht
      simp only [setPending_nextSeq, setPending_base, setPending_config, sendPacket_nextSeq, sendPacket_base,
        sendPacket_config] at hn hl h1 h2 h3
      have hw' : s.nextSeq - s.base < s.config.windowSize := by simpa [windowOpen] using hw
      refine ⟨k + 1, by simpa using hk, ?_, ?_, .inr ?_, ?_⟩
      · rw [sendAll_setPending]; rfl
      · intro q hq
        simp only [List.take_succ_cons, List.mem_cons] at hq
        obtain rfl | hq := hq
        · exact hl
        · exact h1 q hq
      · omega
      · rw [List.drop_succ_cons]
        exact h3.imp_right fun h => by omega
    · simp only [Host.Outcome.next.injEq] at h
      refine ⟨0, by simp, h.symm, by simp, .inl rfl, .inr ?_⟩
      simpa [windowOpen] using hw

/-- When numbers are left for the `k` payloads that the window takes and these fit, a drain sends them (R133). -/
theorem drainQueue_full (queue : List Bytes) (s : State) (hb : s.base ≤ s.nextSeq) (k : Nat)
    (hk : k = min queue.length (s.config.windowSize - (s.nextSeq - s.base)))
    (hl : s.nextSeq + k ≤ fieldLimit) (hf : ∀ p ∈ queue.take k, p.length ≤ s.config.maxPayload) :
    drainQueue queue s = .next (setPending (queue.drop k) (sendAll (queue.take k) s)) := by
  induction queue generalizing s k with
  | nil => simp [drainQueue]
  | cons p rest ih =>
    simp only [List.length_cons] at hk
    simp only [drainQueue]
    split_ifs with hw
    · have hw' : s.nextSeq - s.base < s.config.windowSize := by simpa [windowOpen] using hw
      obtain ⟨j, rfl⟩ : ∃ j, k = j + 1 := ⟨k - 1, by omega⟩
      have hsn := (sendNew_eq_next p (setPending rest s) _).2
        ⟨by rw [setPending_nextSeq]; omega, hf p (by simp), rfl⟩
      rw [hsn, andThen_next, sendPacket_setPending,
        ih (setPending rest (sendPacket p s)) (by simp; omega) j (by simp; omega) (by simp; omega)
          (fun q hq => by simpa using hf q (by simp [hq])),
        sendAll_setPending, setPending_setPending]
      rfl
    · have hw' : s.config.windowSize ≤ s.nextSeq - s.base := by simpa [windowOpen] using hw
      obtain rfl : k = 0 := by omega
      rfl

/-- A drain is refused by R124 or R125 only. -/
theorem drainQueue_refused (queue : List Bytes) (s : State) (r : Refusal) (h : drainQueue queue s = .refused r) :
    (r = .sequenceNumbersExhausted ∧ fieldLimit < s.nextSeq + queue.length) ∨
    (r = .payloadTooLong ∧ ∃ p ∈ queue, s.config.maxPayload < p.length) := by
  induction queue generalizing s with
  | nil => simp [drainQueue] at h
  | cons p rest ih =>
    simp only [drainQueue] at h
    split_ifs at h with hw
    rw [andThen_eq_refused] at h
    obtain h | ⟨u, hu, hr⟩ := h
    · obtain ⟨h1, rfl⟩ | ⟨_, h2, rfl⟩ := (sendNew_eq_refused _ _ _).1 h
      · rw [setPending_nextSeq] at h1
        exact .inl ⟨rfl, by rw [List.length_cons]; omega⟩
      · exact .inr ⟨rfl, p, by simp, h2⟩
    · obtain ⟨hn, hl, rfl⟩ := (sendNew_eq_next _ _ _).1 hu
      rw [sendPacket_setPending] at hr
      obtain ⟨rfl, h1⟩ | ⟨rfl, q, hq, h1⟩ := ih _ hr
      · rw [setPending_nextSeq, sendPacket_nextSeq] at h1
        exact .inl ⟨rfl, by rw [List.length_cons]; omega⟩
      · exact .inr ⟨rfl, q, by simp [hq], by simpa using h1⟩

/-- A drain that would run past the last sequence number is refused (R124). -/
theorem drainQueue_exhausted (queue : List Bytes) (s : State) (hb : s.base ≤ s.nextSeq) (k : Nat)
    (hk : k = min queue.length (s.config.windowSize - (s.nextSeq - s.base))) (h0 : k ≠ 0)
    (hl : fieldLimit < s.nextSeq + k) (hf : ∀ p ∈ queue.take k, p.length ≤ s.config.maxPayload) :
    drainQueue queue s = .refused .sequenceNumbersExhausted := by
  induction queue generalizing s k with
  | nil => simp at hk; omega
  | cons p rest ih =>
    simp only [List.length_cons] at hk
    simp only [drainQueue]
    have hw' : s.nextSeq - s.base < s.config.windowSize := by omega
    rw [if_pos (by simpa [windowOpen] using hw')]
    by_cases hn : fieldLimit ≤ s.nextSeq
    · rw [(sendNew_eq_refused p (setPending rest s) _).2 (.inl ⟨hn, rfl⟩)]; rfl
    · obtain ⟨j, rfl⟩ : ∃ j, k = j + 1 := ⟨k - 1, by omega⟩
      have hsn := (sendNew_eq_next p (setPending rest s) _).2
        ⟨by rw [setPending_nextSeq]; omega, hf p (by simp), rfl⟩
      rw [hsn, andThen_next, sendPacket_setPending]
      exact ih (setPending rest (sendPacket p s)) (by simp; omega) j (by simp; omega) (by omega)
        (by simp; omega) (fun q hq => by simpa using hf q (by simp [hq]))

/-- A drain that reaches a payload too long is refused (R125). -/
theorem drainQueue_tooLong (queue : List Bytes) (s : State) (hb : s.base ≤ s.nextSeq) (k : Nat)
    (hk : k = min queue.length (s.config.windowSize - (s.nextSeq - s.base)))
    (hl : s.nextSeq + k ≤ fieldLimit) (hf : ∃ p ∈ queue.take k, s.config.maxPayload < p.length) :
    drainQueue queue s = .refused .payloadTooLong := by
  induction queue generalizing s k with
  | nil => simp at hf
  | cons p rest ih =>
    simp only [List.length_cons] at hk
    simp only [drainQueue]
    obtain ⟨j, rfl⟩ : ∃ j, k = j + 1 := by
      obtain ⟨q, hq, _⟩ := hf
      cases k with
      | zero => simp at hq
      | succ j => exact ⟨j, rfl⟩
    have hw' : s.nextSeq - s.base < s.config.windowSize := by omega
    rw [if_pos (by simpa [windowOpen] using hw')]
    by_cases hn : s.config.maxPayload < p.length
    · rw [(sendNew_eq_refused p (setPending rest s) _).2 (.inr ⟨by simp; omega, hn, rfl⟩)]; rfl
    · have hsn := (sendNew_eq_next p (setPending rest s) _).2
        ⟨by rw [setPending_nextSeq]; omega, by simpa using hn, rfl⟩
      rw [hsn, andThen_next, sendPacket_setPending]
      refine ih (setPending rest (sendPacket p s)) (by simp; omega) j (by simp; omega) (by simp; omega) ?_
      obtain ⟨q, hq, hq'⟩ := hf
      simp only [List.take_succ_cons, List.mem_cons] at hq
      obtain rfl | hq := hq
      · exact absurd hq' hn
      · exact ⟨q, hq, by simpa using hq'⟩

/-! ## ON_ACK -/

/-- What ON_ACK does when it answers a next state (R130 to R134): nothing, or advance, drain and close. -/
theorem onAck_next (a : Nat) (s t : State) (h : onAck a s = .next t) :
    ((a < s.base ∨ s.nextSeq ≤ a) ∧ t = s) ∨
    (s.base ≤ a ∧ a < s.nextSeq ∧ ∃ k ≤ s.pending.length,
      t = closeAck (setPending (s.pending.drop k) (sendAll (s.pending.take k) (advanceBase a s))) ∧
      (∀ p ∈ s.pending.take k, p.length ≤ s.config.maxPayload) ∧
      (k = 0 ∨ (s.nextSeq + k ≤ fieldLimit ∧ s.nextSeq + k - 1 - (a + 1) < s.config.windowSize)) ∧
      (s.pending.drop k = [] ∨ s.config.windowSize ≤ s.nextSeq + k - (a + 1))) := by
  unfold onAck at h
  split_ifs at h with ha
  · right
    simp only [acceptsAck, Bool.and_eq_true, decide_eq_true_eq] at ha
    rw [andThen_eq_next] at h
    obtain ⟨u, hu, ht⟩ := h
    obtain ⟨k, hk, rfl, h1, h2, h3⟩ := drainQueue_next _ _ _ hu
    exact ⟨ha.1, ha.2, k, hk, (by simpa using ht.symm), h1, h2, h3⟩
  · left
    simp only [acceptsAck, Bool.and_eq_true, decide_eq_true_eq] at ha
    simp only [Host.Outcome.next.injEq] at h
    exact ⟨by omega, h.symm⟩

/-- ON_ACK is refused by R124 or R125 only, inside the drain of an accepted ACK. -/
theorem onAck_refused (a : Nat) (s : State) (r : Refusal) (h : onAck a s = .refused r) :
    s.base ≤ a ∧ a < s.nextSeq ∧
    ((r = .sequenceNumbersExhausted ∧ fieldLimit < s.nextSeq + s.pending.length) ∨
     (r = .payloadTooLong ∧ ∃ p ∈ s.pending, s.config.maxPayload < p.length)) := by
  unfold onAck at h
  split_ifs at h with ha
  simp only [acceptsAck, Bool.and_eq_true, decide_eq_true_eq] at ha
  rw [andThen_eq_refused] at h
  obtain h | ⟨u, hu, ht⟩ := h
  · exact ⟨ha.1, ha.2, drainQueue_refused s.pending (advanceBase a s) r h⟩
  · simp at ht

/-! ## SUBMIT -/

/-- What SUBMIT does when it answers a next state (R121, R122, R123). -/
theorem submit_next (p : Bytes) (s t : State) (h : submit p s = .next t) :
    p.length ≤ s.config.maxPayload ∧
    ((s.nextSeq - s.base < s.config.windowSize ∧ s.nextSeq < fieldLimit ∧ t = sendPacket p s) ∨
     (s.config.windowSize ≤ s.nextSeq - s.base ∧ pendingHasRoom s = true ∧
      t = setPending (s.pending ++ [p]) s)) := by
  unfold submit at h
  split_ifs at h with hw
  · obtain ⟨h1, h2, h3⟩ := (sendNew_eq_next _ _ _).1 h
    exact ⟨h2, .inl ⟨by simpa [windowOpen] using hw, h1, h3⟩⟩
  · unfold bufferPayload at h
    split_ifs at h with h1 h2
    simp only [Host.Outcome.next.injEq] at h
    exact ⟨by omega, .inr ⟨by simpa [windowOpen] using hw, h2, h.symm⟩⟩

end Sys2Proof.Machine
end

