-- ==== Sys2Proof/Laws/Receiver.lean ====
section
/-! SUPPORT. What ON_PACKET can do (43_receiver.md R146 to R150). -/

namespace Sys2Proof.Machine

/-- The branch for data packets (R148, R149). -/
theorem onData_cases (p : Packet) (s : State) :
    (seqOperand p = s.expectedSeq ∧ onData p s = acceptData p s) ∨
    (seqOperand p ≠ s.expectedSeq ∧ onData p s = repeatAck s) := by
  unfold onData
  split_ifs with h
  · exact .inl ⟨h, rfl⟩
  · exact .inr ⟨h, rfl⟩

/-- RX by the result of DECODE (R162, R146). -/
theorem execRx_cases (bytes : Bytes) (s : State) :
    (∃ e, decodePacket bytes = .err e ∧ execRx bytes s = .next (takeCorruption e s)) ∨
    (∃ p, decodePacket bytes = .ok p ∧ p.isAck = false ∧ execRx bytes s = .next (onData p s)) ∨
    (∃ p, decodePacket bytes = .ok p ∧ p.isAck = true ∧ execRx bytes s = onAck (ackOperand p) s) := by
  unfold execRx
  cases h : decodePacket bytes with
  | err e => exact .inl ⟨e, rfl, rfl⟩
  | ok p =>
    cases hk : p.isAck
    · exact .inr (.inl ⟨p, rfl, hk, by simp [onPacket, hk]⟩)
    · exact .inr (.inr ⟨p, rfl, hk, by simp [onPacket, hk]⟩)

/-- A 32-bit sequence number is below `2^32` (R12). -/
theorem seqOperand_lt (p : Packet) : seqOperand p < fieldLimit := p.sequenceNumber.isLt

/-- A 32-bit acknowledgment number is below `2^32` (R12). -/
theorem ackOperand_lt (p : Packet) : ackOperand p < fieldLimit := p.acknowledgmentNumber.isLt

end Sys2Proof.Machine
end

