-- ==== Sys2Proof/Laws/Step.lean ====
section
/-! SUPPORT. What a step does, by the input at the head of the queue (44_endpoint.md R160). -/

namespace Sys2Proof.Machine

theorem step_idle (s : State) (h : s.inbox = []) : step s = .next s := by
  simp [step, fetch, h, idle]

theorem step_reset (s : State) (cfg : Config) (rest : List Input) (h : s.inbox = .reset cfg :: rest) :
    step s = applyReset cfg (beginCommand rest s) := by
  simp [step, fetch, h]

theorem step_word (s : State) (w : PortWord) (rest : List Input) (h : s.inbox = .word w :: rest) :
    step s = match decode w with
      | .ok i => exec i (beginCommand rest s)
      | .error .truncatedPacket => .next (takeCorruption .truncated (beginCommand rest s)) := by
  simp only [step, fetch, h]
  match decode w with
  | .ok _ => rfl
  | .error .truncatedPacket => rfl

/-- What a step that answers a next state has done. -/
theorem step_next (s t : State) (h : step s = .next t) :
    (s.inbox = [] ∧ t = s) ∨
    (∃ cfg rest, s.inbox = .reset cfg :: rest ∧ configLegal cfg = true ∧
      t = { State.resetWith cfg with inbox := rest }) ∨
    (∃ w rest i, s.inbox = .word w :: rest ∧ decode w = .ok i ∧ exec i (beginCommand rest s) = .next t) ∨
    (∃ bytes rest, s.inbox = .word (.packet bytes) :: rest ∧ decode (.packet bytes) = .error .truncatedPacket ∧
      t = takeCorruption .truncated (beginCommand rest s)) := by
  match hi : s.inbox with
  | [] =>
    rw [step_idle s hi] at h
    exact .inl ⟨rfl, (by simpa using h.symm)⟩
  | .reset cfg :: rest =>
    rw [step_reset s cfg rest hi, applyReset] at h
    split_ifs at h with h1 h2
    refine .inr (.inl ⟨cfg, rest, rfl, ?_, by simpa using h.symm⟩)
    simp only [configLegal, Bool.and_eq_true, decide_eq_true_eq]
    omega
  | .word w :: rest =>
    rw [step_word s w rest hi] at h
    match hd : decode w with
    | .ok i => exact .inr (.inr (.inl ⟨w, rest, i, rfl, hd, by simpa [hd] using h⟩))
    | .error .truncatedPacket =>
      simp only [hd, Host.Outcome.next.injEq] at h
      cases w with
      | packet bytes => exact .inr (.inr (.inr ⟨bytes, rest, rfl, hd, h.symm⟩))
      | command op x => simp [decode] at hd
      | action act x d => simp [decode] at hd

/-- The four codes of a port (R72, R74). -/
theorem code_cases : ∀ op : BitVec 2, op = 0b00#2 ∨ op = 0b01#2 ∨ op = 0b10#2 ∨ op = 0b11#2 := by decide

/-- The instructions a command word decodes to (R72, R73). -/
theorem decodeCommand_cases (op : BitVec 2) (x : Bytes) :
    (op = 0b00#2 ∧ decodeCommand op x = .submit x) ∨ (op = 0b01#2 ∧ decodeCommand op x = .rx x) ∨
    (op = 0b10#2 ∧ decodeCommand op x = .timeout) ∨ (op = 0b11#2 ∧ decodeCommand op x = .cmdReserved x) := by
  obtain rfl | rfl | rfl | rfl := code_cases op <;> simp [decodeCommand]

/-- The instructions an action word decodes to (R74). -/
theorem decodeAction_cases (act : BitVec 2) (x : Bytes) (d : Duration) :
    (act = 0b00#2 ∧ decodeAction act x d = .transmit x) ∨ (act = 0b01#2 ∧ decodeAction act x d = .deliver x) ∨
    (act = 0b10#2 ∧ decodeAction act x d = .startTimer d) ∨ (act = 0b11#2 ∧ decodeAction act x d = .stopTimer) := by
  obtain rfl | rfl | rfl | rfl := code_cases act <;> simp [decodeAction]

/-- No word is both a command and an action. -/
theorem decodeCommand_ne_decodeAction (op act : BitVec 2) (x y : Bytes) (d : Duration) :
    decodeCommand op x ≠ decodeAction act y d := by
  obtain ⟨_, h⟩ | ⟨_, h⟩ | ⟨_, h⟩ | ⟨_, h⟩ := decodeCommand_cases op x <;>
    obtain ⟨_, h'⟩ | ⟨_, h'⟩ | ⟨_, h'⟩ | ⟨_, h'⟩ := decodeAction_cases act y d <;> rw [h, h'] <;> simp

/-! ## Everything an instruction can do -/

/-- The reserved code changes nothing when it is not refused (R73). -/
theorem execCmdReserved_next (x : Bytes) (s t : State) (h : execCmdReserved x s = .next t) : t = s := by
  cases hr : s.config.reservedPolicy <;> simp [execCmdReserved, hr] at h
  exact h.symm

/-- When `exec` answers a next state, it is one of: the same state; data accepted; the stored ACK repeated; SUBMIT;
ON_ACK; ON_TIMEOUT; one action. -/
theorem exec_next (i : Instr) (s t : State) (h : exec i s = .next t) :
    t = s ∨
    (∃ p, t = acceptData p s ∧ seqOperand p = s.expectedSeq ∧
      (i = .pktData p ∨ ∃ b, i = .rx b ∧ decodePacket b = .ok p ∧ p.isAck = false)) ∨
    (t = repeatAck s ∧ i ≠ .timeout) ∨
    (∃ payload, i = .submit payload ∧ submit payload s = .next t) ∨
    (∃ p, onAck (ackOperand p) s = .next t ∧
      (i = .pktAck p ∨ ∃ b, i = .rx b ∧ decodePacket b = .ok p ∧ p.isAck = true)) ∨
    (t = onTimeout s ∧ i = .timeout) ∨
    (∃ b, i = .transmit b ∧ t = emit (.transmit b) s) ∨ (∃ b, i = .deliver b ∧ t = emit (.deliver b) s) ∨
    (∃ d, i = .startTimer d ∧ t = armTimer d s) ∨ (i = .stopTimer ∧ t = disarmTimer s) := by
  cases i with
  | pktData p =>
    cases h
    obtain ⟨h1, h2⟩ | ⟨_, h2⟩ := onData_cases p s <;> rw [h2]
    · exact .inr (.inl ⟨p, rfl, h1, .inl rfl⟩)
    · exact .inr (.inr (.inl ⟨rfl, by simp⟩))
  | pktAck p => exact .inr (.inr (.inr (.inr (.inl ⟨p, h, .inl rfl⟩))))
  | submit payload => exact .inr (.inr (.inr (.inl ⟨payload, rfl, h⟩)))
  | rx b =>
    obtain ⟨e, _, h'⟩ | ⟨p, h1, h2, h'⟩ | ⟨p, h1, h2, h'⟩ := execRx_cases b s <;> rw [exec, h'] at h
    · cases h; exact .inr (.inr (.inl ⟨rfl, by simp⟩))
    · cases h
      obtain ⟨h3, h4⟩ | ⟨_, h4⟩ := onData_cases p s <;> rw [h4]
      · exact .inr (.inl ⟨p, rfl, h3, .inr ⟨b, rfl, h1, h2⟩⟩)
      · exact .inr (.inr (.inl ⟨rfl, by simp⟩))
    · exact .inr (.inr (.inr (.inr (.inl ⟨p, h, .inr ⟨b, rfl, h1, h2⟩⟩))))
  | timeout => cases h; exact .inr (.inr (.inr (.inr (.inr (.inl ⟨rfl, rfl⟩)))))
  | cmdReserved x => exact .inl (execCmdReserved_next x s t h)
  | transmit b => cases h; exact .inr (.inr (.inr (.inr (.inr (.inr (.inl ⟨b, rfl, rfl⟩))))))
  | deliver b => cases h; exact .inr (.inr (.inr (.inr (.inr (.inr (.inr (.inl ⟨b, rfl, rfl⟩)))))))
  | startTimer d => cases h; exact .inr (.inr (.inr (.inr (.inr (.inr (.inr (.inr (.inl ⟨d, rfl, rfl⟩))))))))
  | stopTimer => cases h; exact .inr (.inr (.inr (.inr (.inr (.inr (.inr (.inr (.inr ⟨rfl, rfl⟩))))))))

end Sys2Proof.Machine
end

