-- ==== Sys2Proof/Tests/Slice0.lean ====
section
/-! SUPPORT. Tests. Every expected value is written out from the spec: the encodings of 30_encoding.md and the
vectors V1 to V73 of 95_test_vectors.md, which its authors worked out by hand from the rules. -/

namespace Sys2Proof.Tests

open Sys2Proof Sys2Proof.Machine Sys2Proof.Safety

/-! ## The packets of 95_test_vectors.md -/

/-- `ACK(0)` to `ACK(7)`: the checksum is `0xFEFF - a`. -/
def ackBytes (a : Byte) : Bytes := [0, 0, 0, 0, 0, 0, 0, a, 0xFE, 0xFF - a, 1, 0, 0, 0, 0]

/-- `DATA(s, p)` for a one-byte payload, with the low checksum byte written out. -/
def dataBytes (s c p : Byte) : Bytes := [0, 0, 0, s, 0, 0, 0, 0, 0xFE, c, 0, 0, 0, 0, 1, p]

def dataA : Bytes := dataBytes 1 0x9D 0x61
def dataB : Bytes := dataBytes 2 0x9B 0x62
def dataC : Bytes := dataBytes 3 0x99 0x63
def dataD : Bytes := dataBytes 4 0x97 0x64
def dataE : Bytes := dataBytes 5 0x95 0x65
def dataF : Bytes := dataBytes 6 0x93 0x66
def dataZ : Bytes := dataBytes 5 0x80 0x7A

/-- V27 and V28: an encoded packet whose checksum is `0x0000`, and the same with the field `0xFFFF`. -/
def v27 : Bytes := [0, 0, 0, 1, 0, 0, 0, 0, 0, 0, 0, 0, 0, 0, 5, 0x55, 0x7D, 0x55, 0x7D, 0x54]
def v28 : Bytes := [0, 0, 0, 1, 0, 0, 0, 0, 0xFF, 0xFF, 0, 0, 0, 0, 5, 0x55, 0x7D, 0x55, 0x7D, 0x54]

/-- V39: an ACK of 3 with a sequence number and a payload. -/
def v39 : Bytes := [0, 0, 0, 7, 0, 0, 0, 3, 0x82, 0x7B, 1, 0, 0, 0, 2, 0x7A, 0x7A]

/-- The packets of DATA(s, c) and ACK(a) as DECODE returns them. -/
def dataPkt (s : Word32) (c : Word16) (p : Byte) : Packet := ⟨s, 0, c, false, 1, [p]⟩
def ackPkt (a : Word32) : Packet := ⟨0, a, 0, true, 0, []⟩

/-! ## The states of 95_test_vectors.md -/

/-- State S4: after SUBMIT "a" to "d" from reset. -/
def s4 : State :=
  { State.reset with nextSeq := 5, inFlight := [(1, dataA), (2, dataB), (3, dataC), (4, dataD)], timerArmed := true }

/-- State S4 with `pending ["e", "f"]` (V58). -/
def s4ef : State := setPending [[0x65], [0x66]] s4

/-- State E3: after in-order DATA(1,"a"), DATA(2,"b"). -/
def e3 : State := { State.reset with expectedSeq := 3, lastAckSent := ackBytes 2 }

/-- The other reading of R73. -/
def ignoring : Config := { defaultConfig with reservedPolicy := .ignore }

/-- `s` with one command queued. -/
def queue (op : BitVec 2) (operand : Bytes) (s : State) : State :=
  { s with inbox := [.word (.command op operand)] }

/-- An answer as data that can be compared; there is no fault (R187). -/
def answer : Result → Except Refusal State
  | .next t => .ok t
  | .fault e => nomatch e
  | .refused r => .error r

/-! ## WellFormed refuses each kind of ill-formed term -/

theorem test_wf_data_row_with_ack_flag : (Instr.pktData (ackPkt 1)).wellFormed = false := by decide
theorem test_wf_data_row_length_disagrees :
    (Instr.pktData ⟨1, 0, 0, false, 2, [0x61]⟩).wellFormed = false := by decide
theorem test_wf_ack_row_without_ack_flag : (Instr.pktAck (dataPkt 1 0 0x61)).wellFormed = false := by decide
theorem test_wf_ack_row_length_disagrees :
    (Instr.pktAck ⟨0, 1, 0, true, 1, []⟩).wellFormed = false := by decide
theorem test_wf_transmit_shorter_than_header : (Instr.transmit [0x61]).wellFormed = false := by decide
theorem test_wf_submit_too_long :
    (Instr.submit (List.replicate fieldLimit 0x61)).wellFormed = false := by
  simp only [Instr.wellFormed, List.length_replicate, decide_eq_false_iff_not]; decide
theorem test_wf_deliver_too_long :
    (Instr.deliver (List.replicate fieldLimit 0x61)).wellFormed = false := by
  simp only [Instr.wellFormed, List.length_replicate, decide_eq_false_iff_not]; decide

/-! ## Words written out from the spec's encodings (R60, R72, R74) -/

theorem test_decode_data_word : decode (.packet dataA) = .ok (.pktData (dataPkt 1 0xFE9D 0x61)) := by decide
theorem test_decode_ack_word_with_ack_byte_ff :
    decode (.packet [0, 0, 0, 0, 0, 0, 0, 3, 0, 0xFC, 0xFF, 0, 0, 0, 0]) =
      .ok (.pktAck ⟨0, 3, 0x00FC, true, 0, []⟩) := by decide
theorem test_decode_submit_word : decode (.command 0b00#2 [0x61]) = .ok (.submit [0x61]) := by decide
theorem test_decode_rx_word : decode (.command 0b01#2 dataA) = .ok (.rx dataA) := by decide
theorem test_decode_timeout_word : decode (.command 0b10#2 []) = .ok .timeout := by decide
theorem test_decode_reserved_word :
    decode (.command 0b11#2 [0x61]) = .ok (.cmdReserved [0x61]) := by decide
theorem test_decode_transmit_word : decode (.action 0b00#2 dataA 0) = .ok (.transmit dataA) := by decide
theorem test_decode_deliver_word : decode (.action 0b01#2 [] 0) = .ok (.deliver []) := by decide
theorem test_decode_start_timer_word : decode (.action 0b10#2 [] 9) = .ok (.startTimer 9) := by decide
theorem test_decode_stop_timer_word : decode (.action 0b11#2 [] 0) = .ok .stopTimer := by decide
/-- TIMEOUT has no operand, and what stands beside the code is not read (R72). -/
theorem test_decode_timeout_reads_no_operand : decode (.command 0b10#2 [0x61]) = .ok .timeout := by decide
theorem test_decode_refuses_short_packet :
    decode (.packet [0, 0, 0, 0, 0, 0, 0, 1, 0xFE, 0xFE, 1, 0, 0, 0, 1]) = .error .truncatedPacket := by decide
/-- The opcode table's numbers (R71): the match value of PKT_ACK has `is_ack` in bits 39..32. -/
theorem test_table_word_ack :
    decodeTableWord 120 0x000000000000000200000100000000 = some (.pktAck ⟨0, 2, 0, true, 0, []⟩) := by decide
theorem test_table_word_commands :
    (List.range 4).map (decodeTableWord 8) =
      [some (.submit []), some (.rx []), some .timeout, some (.cmdReserved [])] := by decide

/-! ## The checksum unit and the codec -/

/-- V8, V9, V12. -/
theorem test_checksum_vectors :
    checksum [0x12, 0x34, 0x56] = 0x97CB ∧ checksum [0xFF, 0xFF, 0x00, 0x01] = 0xFFFE ∧
    checksum [0x00, 0x01, 0xF2, 0x03, 0xF4, 0xF5, 0xF6, 0xF7] = 0x220D := by decide
/-- V17, V18, V19. -/
theorem test_fold_vectors :
    fold 0x1FFFF = 1 ∧ fold 0xFFFF0001 = 1 ∧ fold 0x1FFFFFFFE = 0xFFFF := by decide
/-- V22, V27. -/
theorem test_encode_vectors :
    encodePacket 0 0xFFFFFFFF true [] = [0, 0, 0, 0, 0xFF, 0xFF, 0xFF, 0xFF, 0xFE, 0xFF, 1, 0, 0, 0, 0] ∧
    encodePacket 1 0 false [0x55, 0x7D, 0x55, 0x7D, 0x54] = v27 := by decide
/-- V32, V36, V37: truncation is tested before the checksum, and `15 + L` does not wrap. -/
theorem test_decode_packet_rejects :
    decodePacket (List.replicate 15 0) = .err .checksumMismatch ∧
    decodePacket [0, 0, 0, 0, 0, 0, 0, 1, 0xFE, 0xFE, 1, 0, 0, 0, 1] = .err .truncated ∧
    decodePacket [0, 0, 0, 1, 0, 0, 0, 0, 0, 0, 0, 0xFF, 0xFF, 0xFF, 0xFF] = .err .truncated := by decide
/-- V33, V39, V50. -/
theorem test_decode_packet_accepts :
    decodePacket [0, 0, 0, 0, 0, 0, 0, 0, 0xFF, 0xFF, 0, 0, 0, 0, 0] = .ok ⟨0, 0, 0xFFFF, false, 0, []⟩ ∧
    decodePacket v39 = .ok ⟨7, 3, 0x827B, true, 2, [0x7A, 0x7A]⟩ ∧
    decodePacket (ackBytes 1 ++ [0xFF, 0xFF]) = .ok ⟨0, 1, 0xFEFE, true, 0, []⟩ := by decide
/-- V28: the two accept tests differ. -/
theorem test_accept_tests_differ : verify v28 = false ∧ wholePacketAccepts v28 = true := by decide

/-! ## One step -/

/-- V52. -/
theorem test_submit_sends :
    answer (step (queue 0b00#2 [0x61] State.reset)) = .ok { State.reset with
      nextSeq := 2, inFlight := [(1, dataA)], timerArmed := true, trace := [.transmit dataA, .startTimer 0] } := by
  decide
/-- V53. -/
theorem test_submit_buffers :
    answer (step (queue 0b00#2 [0x65] s4)) = .ok { s4 with pending := [[0x65]] } := by decide
/-- V69. -/
theorem test_rx_corrupt_repeats_ack :
    answer (step (queue 0b01#2 (dataBytes 3 0x99 0x62) e3)) =
      .ok { e3 with trace := [.transmit (ackBytes 2)] } := by decide
/-- V63a: only the acknowledgment number of an ACK counts. -/
theorem test_rx_ack_with_payload :
    answer (step (queue 0b01#2 v39 s4)) = .ok { s4 with
      base := 4, inFlight := [(4, dataD)], trace := [.startTimer 0] } := by decide
/-- V61's shape on S4, P2 step 2: the stored bytes again. -/
theorem test_timeout_resends :
    answer (step (queue 0b10#2 [] s4)) = .ok { s4 with
      trace := [.transmit dataA, .transmit dataB, .transmit dataC, .transmit dataD, .startTimer 0] } := by decide
/-- V62. -/
theorem test_timeout_idle : answer (step (queue 0b10#2 [] State.reset)) = .ok State.reset := by decide
/-- R73 under both readings. -/
theorem test_reserved_refused :
    answer (step (queue 0b11#2 [] State.reset)) = .error .reservedCommand := by decide
theorem test_reserved_ignored :
    answer (exec (.cmdReserved []) { s4 with config := ignoring }) = .ok { s4 with config := ignoring } := by
  decide
/-- V66's shape with payload "a". -/
theorem test_pkt_data_in_order :
    answer (exec (.pktData (dataPkt 1 0xFE9D 0x61)) State.reset) = .ok { State.reset with
      expectedSeq := 2, lastAckSent := ackBytes 1,
      trace := [.deliver [0x61], .transmit (ackBytes 1)] } := by decide
/-- V67. -/
theorem test_pkt_data_ahead :
    answer (exec (.pktData (dataPkt 5 0xFE80 0x7A)) e3) =
      .ok { e3 with trace := [.transmit (ackBytes 2)] } := by decide
/-- V58: the two START_TIMERs. -/
theorem test_pkt_ack_drains :
    answer (exec (.pktAck (ackPkt 4)) s4ef) = .ok { s4 with
      base := 5, nextSeq := 7, inFlight := [(5, dataE), (6, dataF)], pending := [],
      trace := [.transmit dataE, .startTimer 0, .transmit dataF, .startTimer 0] } := by decide
/-- V57: an ACK of what was never sent. -/
theorem test_pkt_ack_unsent : answer (exec (.pktAck (ackPkt 5)) s4) = .ok s4 := by decide
/-- R166 to R169. -/
theorem test_transmit_row :
    answer (exec (.transmit dataA) e3) = .ok { e3 with trace := [.transmit dataA] } := by decide
theorem test_deliver_row :
    answer (exec (.deliver [0x61]) e3) = .ok { e3 with trace := [.deliver [0x61]] } := by decide
theorem test_start_timer_row :
    answer (exec (.startTimer 9) e3) = .ok { e3 with trace := [.startTimer 9], timerArmed := true } := by decide
theorem test_stop_timer_row :
    answer (exec .stopTimer s4) = .ok { s4 with trace := [.stopTimer], timerArmed := false } := by decide
/-- R210: reset keeps nothing of the life before. -/
theorem test_reset_input :
    answer (step { s4ef with inbox := [.reset defaultConfig] }) = .ok State.reset := by decide
/-- R197: nothing queued, nothing happens. -/
theorem test_idle : answer (step s4) = .ok s4 := by decide
/-- R70, R109, R147: a truncated packet (V51) is answered with the stored ACK, and the block goes on. -/
theorem test_truncated_packet_word :
    answer (step { e3 with inbox := [.word (.packet (dataA.take 15))] }) =
      .ok { e3 with trace := [.transmit (ackBytes 2)] } := by decide
/-- A table word placed at the fetch runs in the next step. -/
theorem test_fetch_word_runs :
    answer (step (State.reset.withFetchWord 8 1)) =
      .ok { State.reset with trace := [.transmit resetAck] } := by decide

/-! ## Witnesses: concrete states and operands that meet the hypotheses of each obligation -/

/-- What `answer` says, said of the outcome itself. -/
theorem of_answer {r : Result} {t : State} (h : answer r = .ok t) : r = .next t := by
  cases r with
  | next u => simpa [answer] using h
  | fault e => cases e
  | refused e => simp [answer] at h

theorem of_answer_refused {r : Result} {e : Refusal} (h : answer r = .error e) : r = .refused e := by
  cases r with
  | next u => simp [answer] at h
  | fault e => cases e
  | refused e' => simpa [answer] using h

/-- S4 meets the invariants (R33). -/
theorem s4_inv : Inv s4 where
  config_legal := by decide
  window := by decide
  keys := by decide
  packets := by
    intro e he
    have hm : e = (1, dataA) ∨ e = (2, dataB) ∨ e = (3, dataC) ∨ e = (4, dataD) := by
      simpa [s4] using he
    obtain rfl | rfl | rfl | rfl := hm
    · exact ⟨[0x61], by decide⟩
    · exact ⟨[0x62], by decide⟩
    · exact ⟨[0x63], by decide⟩
    · exact ⟨[0x64], by decide⟩
  pending_full := by decide
  timer := by decide
  last_ack := by decide
  bounds := by decide
  payloads := by decide
  depth := fun d h => by cases h
  inputs := by decide

/-- So does S4 with payloads waiting and inputs queued. -/
theorem s4_inv_of (q : List Bytes) (inbox : List Input) (hq : ∀ p ∈ q, p.length ≤ fieldLimit - 1)
    (hi : inbox.all inputFromEnvironment = true) : Inv { s4 with pending := q, inbox := inbox } :=
  { s4_inv with
    pending_full := fun _ => (by decide : s4.nextSeq - s4.base = s4.config.windowSize)
    payloads := hq
    depth := fun d h => by cases h
    inputs := hi }

theorem witness_inv_s4 : Inv s4 ∧ s4.timerArmed = true ∧ s4.inFlight ≠ [] :=
  ⟨s4_inv_of [] [] (by simp) rfl, rfl, by decide⟩

/-- E3 meets the invariants with nothing in flight. -/
theorem e3_inv : Inv e3 where
  config_legal := by decide
  window := by decide
  keys := by decide
  packets := fun _ he => nomatch he
  pending_full := by decide
  timer := by decide
  last_ack := by decide
  bounds := by decide
  payloads := by decide
  depth := fun d h => by cases h
  inputs := by decide

/-- TimeoutResendsEveryPacketInFlight: both clauses. -/
theorem witness_timeout_inv : (Inv s4 ∧ s4.inFlight ≠ []) ∧ Inv e3 ∧ e3.inFlight = [] :=
  ⟨⟨s4_inv, by decide⟩, e3_inv, rfl⟩

theorem witness_inv_s4_waiting : Inv s4ef ∧ s4ef.pending ≠ [] :=
  ⟨s4_inv_of _ [] (by decide) rfl, by decide⟩

/-- S4 with a command queued meets the invariants. -/
theorem queue_inv (op : BitVec 2) (operand : Bytes) : Inv (queue op operand s4) :=
  s4_inv_of [] _ (by simp) rfl

/-- WordsAreBigEndianPairsOfPaddedString: the last word of an odd string. -/
theorem witness_words :
    let B : Bytes := [0x12, 0x34, 0x56];
    B.length % 2 = 1 ∧ 1 < (B ++ [0]).length / 2 ∧ ¬ 2 < (B ++ [0]).length / 2 := by decide
/-- FoldIteratesEndAroundCarry: both clauses where they meet. -/
theorem witness_fold : 0xFFFF >>> 16 = 0 ∧ 0x10000 >>> 16 ≠ 0 := by decide
/-- IncrementalSumFoldsAlike: the largest word. -/
theorem witness_incremental : (0xFFFF : Nat) ≤ 0xFFFF ∧ foldIncremental [0xFFFF, 0xFFFF] = 0xFFFF := by decide
/-- ChecksumSpecialValues: V3 and V4. -/
theorem witness_special_values :
    (∀ b ∈ ([0, 0, 0] : Bytes), b = 0#8) ∧ 0 < wordSum [0xFF, 0xFF] ∧ wordSum [0xFF, 0xFF] % 0xFFFF = 0 := by
  decide
/-- EncodeLaysOutEveryField, DecodeOfEncodeRecoversPacket: an empty payload and the longest one. -/
theorem witness_payload_lengths :
    ([] : Bytes).length < fieldLimit ∧ (List.replicate (fieldLimit - 1) (0 : Byte)).length < fieldLimit := by
  rw [List.length_replicate]; decide
/-- DecodeTestsLengthThenChecksum: V31, V36, V32, V20, in the order of the clauses. -/
theorem witness_decode_clauses :
    (List.replicate 14 (0 : Byte)).length < 15 ∧
    (let B : Bytes := [0, 0, 0, 0, 0, 0, 0, 1, 0xFE, 0xFE, 1, 0, 0, 0, 1];
      15 ≤ B.length ∧ B.length < 15 + (u32be B 11).toNat) ∧
    (let B : Bytes := List.replicate 15 0;
      15 + (u32be B 11).toNat ≤ B.length ∧ checksum (B.take 8 ++ [0, 0] ++ B.drop 10) ≠ u16be B 8) ∧
    (let B : Bytes := ackBytes 0;
      15 + (u32be B 11).toNat ≤ B.length ∧ checksum (B.take 8 ++ [0, 0] ++ B.drop 10) = u16be B 8) := by decide
/-- EverySingleBitFlipIsRejected: the last bit of the last byte, and a 0 of `payload_length` (V40). -/
theorem witness_flip :
    let B := encodePacket 1 0 false [0x61];
    15 < B.length ∧ 7 < 8 ∧ 14 < B.length ∧ (byteAt B 14).getLsbD 1 = false := by decide
/-- AcceptTestsDifferInOneCase: V28. -/
theorem witness_accept_tests :
    15 ≤ v28.length ∧ 0 < wordSum (zeroChecksum v28) ∧ wordSum (zeroChecksum v28) % 0xFFFF = 0 ∧
    u16be v28 8 = 0xFFFF#16 := by decide
/-- EncodedPacketsSumToAcceptValue: the first and the last number. -/
theorem witness_sequence_numbers : 1 ≤ 1 ∧ 1 < fieldLimit ∧ 1 ≤ fieldLimit - 1 ∧ fieldLimit - 1 < fieldLimit := by
  decide
/-- DecodeOfEncodeIsIdentity: a well-formed term of each row. -/
theorem witness_well_formed :
    ([.pktData (dataPkt 1 0xFE9D 0x61), .pktAck (ackPkt 3), .submit [0x61], .rx dataA, .timeout,
      .cmdReserved [], .transmit dataA, .deliver [0x61], .startTimer 0, .stopTimer] : List Instr).all
      Instr.wellFormed = true := by decide
/-- EncodeOfDecodeIsIdentity: words that decode, the packets with `is_ack` 0x00 and 0x01. -/
theorem witness_decoding_words :
    decode (.command 0b11#2 [0x61]) = .ok (.cmdReserved [0x61]) ∧
    decode (.action 0b00#2 dataA 0) = .ok (.transmit dataA) ∧
    decode (.packet dataA) = .ok (.pktData (dataPkt 1 0xFE9D 0x61)) ∧
    dataA.length = 15 + (u32be dataA 11).toNat ∧ byteAt dataA 10 = 0x00#8 ∧
    decode (.packet (ackBytes 1)) = .ok (.pktAck ⟨0, 1, 0xFEFE, true, 0, []⟩) ∧
    (ackBytes 1).length = 15 + (u32be (ackBytes 1) 11).toNat ∧ byteAt (ackBytes 1) 10 = 0x01#8 := by decide
/-- PacketKindFollowsIsAckByte: `is_ack` 0x00, 0x01 and 0xFF. -/
theorem witness_packet_kinds :
    15 + (u32be dataA 11).toNat ≤ dataA.length ∧ byteAt dataA 10 = 0x00#8 ∧ byteAt (ackBytes 1) 10 ≠ 0x00#8 ∧
    (let B : Bytes := [0, 0, 0, 0, 0, 0, 0, 3, 0, 0xFC, 0xFF, 0, 0, 0, 0];
      15 + (u32be B 11).toNat ≤ B.length ∧ byteAt B 10 ≠ 0x00#8) := by decide
/-- SubmitSendsWhenWindowOpen: reset; the last number; numbers exhausted; a payload one byte too long. -/
theorem witness_submit_open :
    (State.reset.nextSeq - State.reset.base < State.reset.config.windowSize ∧ State.reset.nextSeq < fieldLimit ∧
      ([0x61] : Bytes).length ≤ State.reset.config.maxPayload) ∧
    (let s := { State.reset with base := fieldLimit - 1, nextSeq := fieldLimit - 1 };
      s.nextSeq - s.base < s.config.windowSize ∧ s.nextSeq < fieldLimit) ∧
    (let s := { State.reset with base := fieldLimit, nextSeq := fieldLimit };
      s.nextSeq - s.base < s.config.windowSize ∧ fieldLimit ≤ s.nextSeq) ∧
    (let s := { State.reset with config := { defaultConfig with maxPayload := 0 } };
      s.nextSeq - s.base < s.config.windowSize ∧ s.nextSeq < fieldLimit ∧
      s.config.maxPayload < ([0x61] : Bytes).length) := by decide
/-- SubmitBuffersWhenWindowFull: S4 unbounded, and with one place in a finite queue. -/
theorem witness_submit_full :
    s4.config.windowSize ≤ s4.nextSeq - s4.base ∧ ([0x65] : Bytes).length ≤ s4.config.maxPayload ∧
    s4.config.pendingDepth = none ∧
    (let s := { s4 with config := { defaultConfig with pendingDepth := some 1 } };
      s.config.windowSize ≤ s.nextSeq - s.base ∧ s.config.pendingDepth = some 1 ∧ s.pending.length < 1) := by
  decide
/-- SubmitStopsWhenItCannotBuffer: one byte too long, and no place left. -/
theorem witness_submit_stops :
    (let s := { s4 with config := { defaultConfig with maxPayload := 0 } };
      s.config.windowSize ≤ s.nextSeq - s.base ∧ s.config.maxPayload < ([0x65] : Bytes).length) ∧
    (let s := { s4 with config := { defaultConfig with pendingDepth := some 0 } };
      s.config.windowSize ≤ s.nextSeq - s.base ∧ ([0x65] : Bytes).length ≤ s.config.maxPayload ∧
      s.config.pendingDepth = some 0 ∧ 0 ≤ s.pending.length) := by decide
/-- SubmitFrame: V52 sends, V53 buffers. -/
theorem witness_submit_frame :
    exec (.submit [0x65]) s4 = .next { s4 with pending := [[0x65]] } ∧
    exec (.submit [0x61]) State.reset = .next { State.reset with
      nextSeq := 2, inFlight := [(1, dataA)], timerArmed := true,
      trace := [.transmit dataA, .startTimer 0] } :=
  ⟨of_answer (by decide), of_answer (by decide)⟩
/-- AckIsIgnoredOrAdvancesDrainsAndCloses: `base - 1` and `next_seq` (V54, V57), then the first and the last number
that is accepted, with payloads waiting. -/
theorem witness_ack :
    (ackPkt 0).acknowledgmentNumber.toNat < s4ef.base ∧ s4ef.nextSeq ≤ (ackPkt 5).acknowledgmentNumber.toNat ∧
    (s4ef.base ≤ (ackPkt 1).acknowledgmentNumber.toNat ∧ (ackPkt 1).acknowledgmentNumber.toNat < s4ef.nextSeq ∧
      drainCount 1 s4ef = 1) ∧
    (s4ef.base ≤ (ackPkt 4).acknowledgmentNumber.toNat ∧ (ackPkt 4).acknowledgmentNumber.toNat < s4ef.nextSeq ∧
      drainCount 4 s4ef = 2) ∧
    s4ef.nextSeq + 2 ≤ fieldLimit ∧
    (∀ payload ∈ s4ef.pending.take 2, payload.length ≤ s4ef.config.maxPayload) := by decide
/-- AckIsRefusedWhenItsDrainIs: one number left for two payloads, and a payload that is too long. -/
theorem witness_ack_refused :
    (let s := { s4ef with base := fieldLimit - 5, nextSeq := fieldLimit - 1 };
      let a := fieldLimit - 2;
      s.base ≤ a ∧ a < s.nextSeq ∧ s.pending.take (drainCount a s) ≠ [] ∧
      fieldLimit < s.nextSeq + (s.pending.take (drainCount a s)).length ∧
      (∀ payload ∈ s.pending.take (drainCount a s), payload.length ≤ s.config.maxPayload)) ∧
    (let s := { s4ef with config := { defaultConfig with maxPayload := 0 } };
      s.base ≤ 4 ∧ 4 < s.nextSeq ∧ s.nextSeq + (s.pending.take (drainCount 4 s)).length ≤ fieldLimit ∧
      ∃ payload ∈ s.pending.take (drainCount 4 s), s.config.maxPayload < payload.length) := by decide
/-- UnreadPacketFieldsDoNotMatter: packets that differ in every field that is not read. -/
theorem witness_unread_fields :
    (⟨7, 3, 0x827B, true, 2, [0x7A, 0x7A]⟩ : Packet).acknowledgmentNumber = (ackPkt 3).acknowledgmentNumber ∧
    (⟨1, 9, 0xFE94, false, 1, [0x61]⟩ : Packet).sequenceNumber = (dataPkt 1 0xFE9D 0x61).sequenceNumber ∧
    (⟨1, 9, 0xFE94, false, 1, [0x61]⟩ : Packet).payload = (dataPkt 1 0xFE9D 0x61).payload := by decide
/-- AckFrame, SequenceRegistersNeverDecrease, StoreStaysCanonical: an ACK that advances and drains (V58). -/
theorem witness_ack_next :
    storeWf s4ef.inFlight = true ∧ exec (.pktAck (ackPkt 4)) s4ef = .next { s4 with
      base := 5, nextSeq := 7, inFlight := [(5, dataE), (6, dataF)], pending := [],
      trace := [.transmit dataE, .startTimer 0, .transmit dataF, .startTimer 0] } :=
  ⟨by decide, of_answer (by decide)⟩
/-- TimeoutResendsOrDoesNothing: S4 and reset. -/
theorem witness_timeout : s4.base ≠ s4.nextSeq ∧ State.reset.base = State.reset.nextSeq := by decide
/-- TimeoutFrame. -/
theorem witness_timeout_frame : exec .timeout State.reset = .next State.reset := of_answer (by decide)
/-- CorruptRxRepeatsLastAck: V64 and V69. -/
theorem witness_corrupt :
    decodePacket [] = .err .truncated ∧ decodePacket (dataBytes 3 0x99 0x62) = .err .checksumMismatch := by decide
/-- DataInOrderIsDeliveredAndAcknowledged. -/
theorem witness_in_order :
    decodePacket dataA = .ok (dataPkt 1 0xFE9D 0x61) ∧ (dataPkt 1 0xFE9D 0x61).isAck = false ∧
    (dataPkt 1 0xFE9D 0x61).sequenceNumber.toNat = State.reset.expectedSeq := by decide
/-- DataOutOfOrderRepeatsLastAck: one ahead of E3's `expected_seq`, and one behind (V68). -/
theorem witness_out_of_order :
    decodePacket dataD = .ok (dataPkt 4 0xFE97 0x64) ∧
    (dataPkt 4 0xFE97 0x64).sequenceNumber.toNat = e3.expectedSeq + 1 ∧
    decodePacket dataB = .ok (dataPkt 2 0xFE9B 0x62) ∧
    (dataPkt 2 0xFE9B 0x62).sequenceNumber.toNat + 1 = e3.expectedSeq := by decide
/-- RxOfAckForwardsToSender: V39. -/
theorem witness_rx_ack :
    decodePacket v39 = .ok ⟨7, 3, 0x827B, true, 2, [0x7A, 0x7A]⟩ ∧
    (⟨7, 3, 0x827B, true, 2, [0x7A, 0x7A]⟩ : Packet).isAck = true := by decide
/-- RxCompletesOnEveryByteString: the last state in which numbers are left for what waits. -/
theorem witness_rx_completes :
    let s := { s4ef with base := fieldLimit - 6, nextSeq := fieldLimit - 2 };
    s.nextSeq + s.pending.length = fieldLimit ∧
    (∀ payload ∈ s.pending, payload.length ≤ s.config.maxPayload) := by decide
/-- ReceiverFrame: the row, and the RX of a byte string that DECODE rejects. -/
theorem witness_receiver_frame :
    exec (.pktData (dataPkt 5 0xFE80 0x7A)) e3 = .next { e3 with trace := [.transmit (ackBytes 2)] } ∧
    exec (.rx []) e3 = .next { e3 with trace := [.transmit (ackBytes 2)] } ∧
    (∀ p, decodePacket [] = .ok p → p.isAck = false) :=
  ⟨of_answer (by decide), of_answer (by decide), fun p h => by
    have hd : decodePacket [] = .err .truncated := by decide
    rw [hd] at h; cases h⟩
/-- ReservedCodeIsRefusedOrIgnored. -/
theorem witness_reserved :
    State.reset.config.reservedPolicy = .refuse ∧
    ({ State.reset with config := ignoring } : State).config.reservedPolicy = .ignore := by decide
/-- ResetInputKeepsNothing, ConfigurationChangesOnlyAtReset: window sizes 1 and 0, with a command behind. -/
theorem witness_reset_input :
    let ok := normativeConfig 1 7 .b;
    let s : State := { s4ef with inbox := [.reset ok, .word (.command 0b10#2 [])] };
    s.inbox = [.reset ok, .word (.command 0b10#2 [])] ∧ 1 ≤ ok.windowSize ∧ ok.maxPayload < fieldLimit ∧
    (normativeConfig 0 7 .b).windowSize = 0 := by decide
/-- ConfigurationChangesOnlyAtReset, StepRunsDecodedInstruction: a queued word that decodes and completes. -/
theorem witness_step_runs :
    (queue 0b00#2 [0x65] s4).inbox = [.word (.command 0b00#2 [0x65])] ∧
    decode (.command 0b00#2 [0x65]) = .ok (.submit [0x65]) ∧
    step (queue 0b00#2 [0x65] s4) = .next { s4 with pending := [[0x65]] } ∧ s4.inbox = [] :=
  ⟨rfl, by decide, of_answer (by decide), rfl⟩
/-- EveryWordIsRunOrAnsweredAsCorrupt: packet words at both limits, one byte short of the header and of the payload. -/
theorem witness_packet_words :
    (15 ≤ dataA.length ∧ 15 + (u32be dataA 11).toNat = dataA.length) ∧
    (dataA.take 14).length < 15 ∧ (dataA.take 15).length + 1 = 15 + (u32be (dataA.take 15) 11).toNat := by decide
/-- FetchedTableWordRuns: a packet word and a command word. -/
theorem witness_table_words :
    decodeTableWord 8 2 = some .timeout ∧
    decodeTableWord 120 0x000000000000000000000100000000 = some (.pktAck ⟨0, 0, 0, true, 0, []⟩) := by decide
/-- StepIsRefusedOnlyByRule: a step that is refused. -/
theorem witness_refused : step (queue 0b11#2 [] State.reset) = .refused .reservedCommand :=
  of_answer_refused (by decide)
/-- StepCompletesWithinDuties: a state with packets in flight and each command of the environment. -/
theorem witness_duties :
    (Inv (queue 0b00#2 [0x65] s4) ∧ dutyKept (.submit [0x65]) (queue 0b00#2 [0x65] s4)) ∧
    (Inv (queue 0b01#2 v39 s4) ∧ dutyKept (.rx v39) (queue 0b01#2 v39 s4)) ∧
    (Inv (queue 0b10#2 [] s4) ∧ dutyKept .timeout (queue 0b10#2 [] s4)) :=
  ⟨⟨queue_inv _ _, by simp only [dutyKept]; decide⟩,
   ⟨queue_inv _ _, by simp only [dutyKept, sequenceSpaceLeft]; decide⟩, ⟨queue_inv _ _, trivial⟩⟩
/-- ResetMeetsInvariants: a legal configuration with the smallest window. -/
theorem witness_legal_config : configLegal (normativeConfig 1 7 .b) = true := by decide
/-- EveryStepKeepsInvariants, StoredPacketsAreNeverModified, TransmittedBytesAreEncodedPackets,
TraceOfOneCommandIsBounded (RX), TimerMirrorFollowsActions, TimerStartsCarryTheInterval: an RX that removes some
in-flight entries and keeps others (V63a). -/
theorem witness_step_rx_ack :
    Inv (queue 0b01#2 v39 s4) ∧ nextIsCommand (queue 0b01#2 v39 s4) = true ∧
    step (queue 0b01#2 v39 s4) = .next { s4 with
      base := 4, inFlight := [(4, dataD)], trace := [.startTimer 0] } ∧
    storeRead s4.inFlight 3 = some dataC ∧ storeRead s4.inFlight 4 = some dataD :=
  ⟨queue_inv _ _, rfl, of_answer (by decide), by decide, by decide⟩
/-- TraceOfOneCommandIsBounded (SUBMIT, TIMEOUT), TransmittedBytesAreEncodedPackets: a TIMEOUT with the longest
trace, and a SUBMIT. -/
theorem witness_step_timeout :
    Inv (queue 0b10#2 [] s4) ∧ step (queue 0b10#2 [] s4) = .next { s4 with
      trace := [.transmit dataA, .transmit dataB, .transmit dataC, .transmit dataD, .startTimer 0] } ∧
    Inv (queue 0b00#2 [0x65] s4) :=
  ⟨queue_inv _ _, of_answer (by decide), queue_inv _ _⟩
/-- DeliveryExactlyWhenExpectedAdvances: a command that delivers. -/
theorem witness_delivery :
    nextIsCommand (queue 0b01#2 dataA State.reset) = true ∧
    step (queue 0b01#2 dataA State.reset) = .next { State.reset with
      expectedSeq := 2, lastAckSent := ackBytes 1, trace := [.deliver [0x61], .transmit (ackBytes 1)] } :=
  ⟨rfl, of_answer (by decide)⟩

/-- A payload submitted, retransmitted, corrupted once on the way, and acknowledged. -/
def linkEvents : List LinkEvent :=
  [.submit .a [0x61], .expire .a, .corrupt .b (dataBytes 1 0x9D 0x60), .arrive .b, .arrive .a, .arrive .a]

/-- LinkStepKeepsInvariant: a link with a packet on its way that meets the invariant, and an event that can happen. -/
def linkSent : Link :=
  { a := { endpoint := { State.reset with nextSeq := 2, inFlight := [(1, dataA)], timerArmed := true }
           toPeer := [dataA], submitted := [[0x61]], delivered := [] }
    b := { endpoint := State.reset, toPeer := [], submitted := [], delivered := [] } }

theorem witness_link_inv :
    LinkInv linkSent ∧ detectedCorruption (.arrive .b) = true ∧ (linkStep linkSent (.arrive .b)).isSome = true where
  left :=
    { sideA :=
        { endpoint :=
            { config_legal := by decide, window := by decide, keys := by decide, timer := by decide
              packets := by
                intro e he
                obtain rfl : e = (1, dataA) := by simpa [linkSent] using he
                exact ⟨[0x61], by decide⟩
              pending_full := by decide, last_ack := by decide, bounds := by decide, payloads := by decide
              depth := fun d h => by cases h
              inputs := by decide }
          numbered := by decide
          waiting := by decide
          inFlight := by
            intro e he
            obtain rfl : e = (1, dataA) := by simpa [linkSent] using he
            exact ⟨[0x61], by decide⟩
          onItsWay := by
            intro bytes hb
            obtain rfl : bytes = dataA := by simpa [linkSent] using hb
            exact .inl ⟨1, [0x61], by decide⟩ }
      sideB :=
        { endpoint :=
            { config_legal := by decide, window := by decide, keys := by decide, timer := by decide
              packets := fun _ he => nomatch he
              pending_full := by decide, last_ack := by decide, bounds := by decide, payloads := by decide
              depth := fun d h => by cases h
              inputs := by decide }
          numbered := by decide
          waiting := by decide
          inFlight := fun _ he => nomatch he
          onItsWay := fun _ hb => nomatch hb }
      aToB := ⟨by decide, by decide, by decide⟩
      bToA := ⟨by decide, by decide, by decide⟩ }
  right := by decide

/-- LinkResetMeetsInvariant, LinkDeliversInOrderExactlyOnce, QuiescentLinkHasDeliveredEverything: a run that ends quiescent with something
delivered. -/
theorem witness_link :
    configLegal defaultConfig = true ∧ configLegal (normativeConfig 1 7 .b) = true ∧
    (∀ e ∈ linkEvents, detectedCorruption e = true) ∧
    (linkRun (linkReset defaultConfig (normativeConfig 1 7 .b)) linkEvents).map
      (fun l => (linkQuiescent l, l.a.submitted, l.b.delivered)) = some (true, [[0x61]], [[0x61]]) := by decide

end Sys2Proof.Tests
end

section
/-! The reserved command code (30_encoding.md R73). -/

namespace Sys2Proof.Machine

/-- The meaning of the CMD_RESERVED row is `execCmdReserved`. -/
@[simp] theorem exec_cmdReserved (operand : Bytes) (s : State) :
    exec (.cmdReserved operand) s = execCmdReserved operand s := rfl

/-- R73: a model refuses the reserved code. -/
theorem execCmdReserved_of_refuse (operand : Bytes) {s : State} (h : s.config.reservedPolicy = .refuse) :
    execCmdReserved operand s = .refused .reservedCommand := by
  rw [execCmdReserved, h]

/-- R73: an implementation ignores the reserved code. -/
theorem execCmdReserved_of_ignore (operand : Bytes) {s : State} (h : s.config.reservedPolicy = .ignore) :
    execCmdReserved operand s = .next s := by
  rw [execCmdReserved, h]

/-- Settles O35, from the two readings of R73, one for each policy. -/
theorem reservedCodeIsRefusedOrIgnored : Obligations.ReservedCodeIsRefusedOrIgnored := by
  intro operand s
  rw [exec_cmdReserved]
  exact ⟨execCmdReserved_of_refuse operand, execCmdReserved_of_ignore operand⟩

end Sys2Proof.Machine
end

section
/-! The checksum unit (40_checksum.md): WORDS, FOLD and CHECKSUM as the spec's pseudocode says them. -/

namespace Sys2Proof.Machine

/-- WORDS gives one word for every two bytes begun (R86: `m = ceil(n / 2)`). -/
@[simp] theorem words_length (B : Bytes) : (words B).length = (B.length + 1) / 2 := by
  induction B using words.induct with
  | case1 => rfl
  | case2 b => simp [words]
  | case3 b₀ b₁ rest ih =>
    simp only [words, List.length_cons, ih]
    omega

/-- Each word of WORDS (R86). A byte past the end is read as zero, which is the pad byte of an odd string. -/
theorem words_getElem? (B : Bytes) (k : Nat) (h : k < (B.length + 1) / 2) :
    (words B)[k]? = some ((byteAt B (2 * k)).toNat * 256 + (byteAt B (2 * k + 1)).toNat) := by
  induction B using words.induct generalizing k with
  | case1 => simp at h
  | case2 b =>
    obtain rfl : k = 0 := by simpa using h
    simp [words, byteAt]
  | case3 b₀ b₁ rest ih =>
    match k with
    | 0 => rfl
    | k + 1 => exact ih k (by simp only [List.length_cons] at h; omega)

/-- A zero byte at the end changes no byte that `byteAt` reads. -/
theorem byteAt_append_zero (B : Bytes) (i : Nat) : byteAt (B ++ [0]) i = byteAt B i := by
  unfold byteAt
  rcases Nat.lt_or_ge i B.length with h | h
  · exact List.getD_append B [0] 0 i h
  · rw [List.getD_append_right B [0] 0 i h, List.getD_eq_default B 0 h]
    cases i - B.length <;> rfl

/-- Settles O1: the words are those of the string itself, and the pad byte is the zero read past its end. -/
theorem wordsAreBigEndianPairsOfPaddedString : Obligations.WordsAreBigEndianPairsOfPaddedString := by
  intro B padded
  have hbyte : ∀ i, byteAt padded i = byteAt B i := by
    intro i
    unfold padded
    split
    · exact byteAt_append_zero B i
    · rfl
  have hlen : padded.length / 2 = (B.length + 1) / 2 := by
    unfold padded
    split
    · simp
    · omega
  simp only [hbyte, hlen]
  exact ⟨words_length B, words_getElem? B⟩

/-- FOLD leaves a number without carry as it is (R87, the loop test). -/
theorem fold_eq_self {x : Nat} (h : x < 65536) : fold x = x := by
  have hlt := fold_lt x
  have hmod := fold_mod x
  have hzero := fold_eq_zero x
  omega

/-- One end-around carry does not change what FOLD answers (R87, the loop body): `65536` is 1 modulo `0xFFFF`. -/
theorem fold_endAroundCarry (x : Nat) : fold (x % 65536 + x / 65536) = fold x := by
  rw [fold_eq_fold]
  omega

/-- Settles O2: the loop test, the loop body and the bound of R87. -/
theorem foldIteratesEndAroundCarry : Obligations.FoldIteratesEndAroundCarry := by
  intro x
  rw [shiftRight16, and_FFFF]
  refine ⟨fun hcarry => fold_eq_self ?_, fun _ => (fold_endAroundCarry x).symm, Nat.le_of_lt_succ (fold_lt x)⟩
  omega

/-- Settles O4: the word sum is the exact sum that R89 accumulates from the left. -/
theorem checksumComplementsFoldedSum : Obligations.ChecksumComplementsFoldedSum := by
  intro B
  rw [checksum_toNat, wordSum, List.sum_eq_foldl]

end Sys2Proof.Machine
end

section
/-! The packet codec (41_codec.md): where ENCODE puts each field, and the order in which DECODE tests. -/

namespace Sys2Proof

/-- The place of each header field and of the payload in a packet (R60), whatever the checksum field holds. -/
theorem packetBytes_layout (seq ack : Word32) (c : Word16) (k : Bool) (payload : Bytes) :
    let B := packetBytes seq ack c k payload
    B.take 4 = be32 seq ∧ (B.drop 4).take 4 = be32 ack ∧ (B.drop 8).take 2 = be16 c ∧ B[10]? = some (ackByte k) ∧
    (B.drop 11).take 4 = be32 (BitVec.ofNat 32 payload.length) ∧ B.drop 15 = payload :=
  ⟨rfl, rfl, rfl, rfl, rfl, rfl⟩

/-- The second test of length decides truncation: a string shorter than a header fails it too (R108, R109). -/
theorem isTruncated_iff (B : Bytes) : isTruncated B = true ↔ B.length < 15 + (u32be B 11).toNat := by
  simp only [isTruncated, headerLen, Bool.or_eq_true, decide_eq_true_eq]
  omega

/-- A byte string that is not truncated has the payload its header declares (R101, R112). -/
theorem packetFields_payload_length {B : Bytes} (h : isTruncated B = false) :
    (packetFields B).payload.length = (packetFields B).payloadLength.toNat := by
  have hlen : ¬ B.length < 15 + (u32be B 11).toNat := by simp [← isTruncated_iff, h]
  simp only [packetFields, headerLen, List.length_take, List.length_drop]
  omega

/-- Every `is_ack` byte but 0x00 reads as true (R64). -/
theorem packetFields_isAck_iff (B : Bytes) : (packetFields B).isAck = true ↔ byteAt B 10 ≠ 0#8 :=
  bne_iff_ne

end Sys2Proof

namespace Sys2Proof.Machine

/-- Settles O7: the checksum is that of the packet with a zero field, and zeroing the result gives that packet back. -/
theorem encodeLaysOutEveryField : Obligations.EncodeLaysOutEveryField := by
  intro seq ack isAck payload _ B
  have hzero : B.take 8 ++ [0, 0] ++ B.drop 10 = packetBytes seq ack 0 isAck payload :=
    zeroChecksum_packetBytes seq ack _ isAck payload
  rw [hzero]
  exact ⟨encodePacket_length seq ack isAck payload, packetBytes_layout seq ack _ isAck payload⟩

/-- What VERIFY compares (R110). -/
theorem verify_iff (B : Bytes) : verify B = true ↔ checksum (zeroChecksum B) = u16be B 8 :=
  beq_iff_eq

/-- A truncated byte string is reported as such whatever its checksum (R107). -/
theorem decodePacket_of_truncated {B : Bytes} (h : isTruncated B = true) : decodePacket B = .err .truncated := by
  simp [decodePacket, parsePacket, h]

/-- A byte string that is not truncated is decided by VERIFY alone (R106). -/
theorem decodePacket_of_not_truncated {B : Bytes} (h : isTruncated B = false) :
    decodePacket B = if verify B then .ok (packetFields B) else .err .checksumMismatch := by
  simp [decodePacket, parsePacket, h]

/-- Settles O8: the two tests of length are one bound, and past it VERIFY chooses between the error and the fields. -/
theorem decodeTestsLengthThenChecksum : Obligations.DecodeTestsLengthThenChecksum := by
  intro B
  have htrunc (hlen : B.length < 15 + (u32be B 11).toNat) : decodePacket B = .err .truncated :=
    decodePacket_of_truncated ((isTruncated_iff B).mpr hlen)
  have hwhole (hlen : 15 + (u32be B 11).toNat ≤ B.length) : isTruncated B = false := by
    rw [← Bool.not_eq_true, isTruncated_iff]
    exact Nat.not_lt.mpr hlen
  refine ⟨fun hshort => htrunc (Nat.lt_add_right _ hshort), fun _ hlen => htrunc hlen, fun hlen hsum => ?_,
    fun hlen hsum => ?_⟩
  · rw [decodePacket_of_not_truncated (hwhole hlen), if_neg (mt (verify_iff B).mp hsum)]
  · refine ⟨packetFields B, ?_, rfl, rfl, rfl, packetFields_isAck_iff B, rfl, rfl,
      packetFields_payload_length (hwhole hlen)⟩
    rw [decodePacket_of_not_truncated (hwhole hlen), if_pos ((verify_iff B).mpr hsum)]

end Sys2Proof.Machine
end

section
/-! The sender's commands (42_sender.md): SUBMIT, an ACK and TIMEOUT as exact next states. -/

namespace Sys2Proof.Machine

open Sys2Proof.Safety

/-- The meaning of the SUBMIT row is `submit`. -/
@[simp] theorem exec_submit (payload : Bytes) (s : State) : exec (.submit payload) s = submit payload s := rfl

/-- The meaning of the PKT_ACK row is `onAck` of the acknowledgment number. -/
@[simp] theorem exec_pktAck (p : Packet) (s : State) :
    exec (.pktAck p) s = onAck p.acknowledgmentNumber.toNat s := rfl

/-- The meaning of the TIMEOUT row is `onTimeout`. -/
@[simp] theorem exec_timeout (s : State) : exec .timeout s = .next (onTimeout s) := rfl

/-! ### The conditions of the rules as propositions -/

theorem windowOpen_iff (s : State) : windowOpen s = true ↔ s.nextSeq - s.base < s.config.windowSize :=
  decide_eq_true_iff

theorem nothingOutstanding_iff (s : State) : nothingOutstanding s = true ↔ s.base = s.nextSeq :=
  beq_iff_eq

theorem acceptsAck_iff (s : State) (a : Nat) : acceptsAck s a = true ↔ s.base ≤ a ∧ a < s.nextSeq := by
  simp only [acceptsAck, Bool.and_eq_true, decide_eq_true_eq]

/-- The unbounded queue always has room, a finite one below its depth (R25, R225). -/
theorem pendingHasRoom_iff (s : State) :
    pendingHasRoom s = true ↔ ∀ depth, s.config.pendingDepth = some depth → s.pending.length < depth := by
  unfold pendingHasRoom
  cases s.config.pendingDepth <;> simp

/-! ### SUBMIT (R121 to R125) -/

theorem submit_of_windowOpen (payload : Bytes) {s : State} (h : s.nextSeq - s.base < s.config.windowSize) :
    submit payload s = sendNew payload s :=
  if_pos ((windowOpen_iff s).mpr h)

theorem submit_of_windowFull (payload : Bytes) {s : State} (h : s.config.windowSize ≤ s.nextSeq - s.base) :
    submit payload s = bufferPayload payload s :=
  if_neg (mt (windowOpen_iff s).mp (Nat.not_lt.mpr h))

/-- A payload that fits, with room for it, goes to the back of the queue (R122). -/
theorem bufferPayload_of_room {payload : Bytes} {s : State} (hfit : payload.length ≤ s.config.maxPayload)
    (hroom : pendingHasRoom s = true) :
    bufferPayload payload s = .next (setPending (s.pending ++ [payload]) s) := by
  rw [bufferPayload, if_neg (Nat.not_lt.mpr hfit), if_pos hroom]

/-- SEND_NEW after its two tests, field by field (R123). -/
theorem sendPacket_eq (payload : Bytes) (s : State) :
    sendPacket payload s = { s with
      inFlight := storeInsert s.inFlight s.nextSeq (dataPacket s.nextSeq payload)
      nextSeq := s.nextSeq + 1
      timerArmed := if s.base = s.nextSeq then true else s.timerArmed
      trace := s.trace ++ [.transmit (dataPacket s.nextSeq payload)] ++
        (if s.base = s.nextSeq then [.startTimer s.config.timerInterval] else []) } := by
  by_cases h : s.base = s.nextSeq
  · have hnone := (nothingOutstanding_iff s).mpr h
    apply state_ext <;> simp [h, hnone]
  · have hsome : nothingOutstanding s = false := Bool.eq_false_iff.mpr (mt (nothingOutstanding_iff s).mp h)
    apply state_ext <;> simp [h, hsome]

/-- Settles O17: with the window open SUBMIT is SEND_NEW, whose tests decide among the three answers. -/
theorem submitSendsWhenWindowOpen : Obligations.SubmitSendsWhenWindowOpen := by
  intro payload s hopen
  rw [exec_submit, submit_of_windowOpen payload hopen]
  refine ⟨fun hnum hfit => ?_, fun hnum => ?_, fun hnum hlong => ?_⟩
  · exact (sendNew_eq_next payload s _).mpr ⟨hnum, hfit, (sendPacket_eq payload s).symm⟩
  · exact (sendNew_eq_refused payload s _).mpr (.inl ⟨hnum, rfl⟩)
  · exact (sendNew_eq_refused payload s _).mpr (.inr ⟨hnum, hlong, rfl⟩)

/-- Settles O18: with the window full SUBMIT only buffers. -/
theorem submitBuffersWhenWindowFull : Obligations.SubmitBuffersWhenWindowFull := by
  intro payload s hfull hfit hroom
  rw [exec_submit, submit_of_windowFull payload hfull,
    bufferPayload_of_room hfit ((pendingHasRoom_iff s).mpr hroom), setPending]

/-! ### ON_ACK (R130 to R134) -/

/-- Packets sent in a row are put into the store one after the other, whatever it holds. -/
theorem sendAll_inFlight_eq_insertAll (ps : List Bytes) (s : State) :
    (sendAll ps s).inFlight = storeInsertAll s.inFlight (numberedPackets s.nextSeq ps) := by
  induction ps generalizing s with
  | nil => rfl
  | cons p ps ih =>
    rw [sendAll_cons, ih, sendPacket_inFlight, sendPacket_nextSeq]
    rfl

/-- No more payloads are drained than wait. -/
theorem drainCount_le_length (a : Nat) (s : State) : drainCount a s ≤ s.pending.length :=
  Nat.min_le_left _ _

/-- An ACK that is no progress, or of a number never sent, is ignored (R131). -/
theorem onAck_of_ignored {a : Nat} {s : State} (h : a < s.base ∨ s.nextSeq ≤ a) : onAck a s = .next s :=
  if_neg (by rw [acceptsAck_iff]; omega)

/-- The state after an accepted ACK and its drain, before the closing timer action (R132, R133). -/
def drainedState (a : Nat) (s : State) : State :=
  setPending (s.pending.drop (drainCount a s)) (sendAll (s.pending.take (drainCount a s)) (advanceBase a s))

/-- An accepted ACK whose drain is within R124 and R125 advances, drains and closes. -/
theorem onAck_of_accepted {a : Nat} {s : State} (hbase : s.base ≤ a) (hsent : a < s.nextSeq)
    (hnum : s.nextSeq + drainCount a s ≤ fieldLimit)
    (hfit : ∀ payload ∈ s.pending.take (drainCount a s), payload.length ≤ s.config.maxPayload) :
    onAck a s = .next (closeAck (drainedState a s)) := by
  have hdrain : drain (advanceBase a s) = .next (drainedState a s) :=
    drainQueue_full s.pending (advanceBase a s) hsent (drainCount a s) rfl hnum hfit
  rw [onAck, if_pos ((acceptsAck_iff s a).mpr ⟨hbase, hsent⟩), hdrain, andThen_next]

/-- After an accepted ACK something is outstanding exactly when `a + 1` is still below the next number (R134). -/
theorem nothingOutstanding_drainedState {a : Nat} {s : State} (hsent : a < s.nextSeq) :
    nothingOutstanding (drainedState a s) = !decide (a + 1 < s.nextSeq + drainCount a s) := by
  rw [Bool.eq_iff_iff, nothingOutstanding_iff]
  simp only [drainedState, setPending_base, setPending_nextSeq, sendAll_base, sendAll_nextSeq, advanceBase_base,
    advanceBase_nextSeq, List.length_take_of_le (drainCount_le_length a s), Bool.not_eq_true', decide_eq_false_iff_not]
  omega

/-- The actions of an accepted ACK up to its drain (R133). -/
theorem drainedState_trace {a : Nat} {s : State} (hsent : a < s.nextSeq) :
    (drainedState a s).trace = s.trace ++ drainActions s.config.timerInterval (decide (a + 1 = s.nextSeq))
      ((numberedPackets s.nextSeq (s.pending.take (drainCount a s))).map Prod.snd) :=
  sendAll_trace _ (advanceBase a s) hsent

/-- The state after an accepted ACK, field by field. -/
theorem closeAck_drainedState {a : Nat} {s : State} (hsent : a < s.nextSeq) :
    closeAck (drainedState a s) = { s with
      base := a + 1
      nextSeq := s.nextSeq + drainCount a s
      pending := s.pending.drop (drainCount a s)
      inFlight := storeInsertAll (storeRemoveRange s.inFlight s.base a)
        (numberedPackets s.nextSeq (s.pending.take (drainCount a s)))
      timerArmed := decide (a + 1 < s.nextSeq + drainCount a s)
      trace := s.trace ++
        drainActions s.config.timerInterval (decide (a + 1 = s.nextSeq))
          ((numberedPackets s.nextSeq (s.pending.take (drainCount a s))).map Prod.snd) ++
        [if a + 1 < s.nextSeq + drainCount a s then .startTimer s.config.timerInterval else .stopTimer] } := by
  have hclosed := nothingOutstanding_drainedState hsent
  apply state_ext
  case h2 => simp [drainedState, drainCount_le_length]
  case h3 => simp [drainedState, sendAll_inFlight_eq_insertAll]
  case h7 => simp [hclosed]
  case h10 =>
    rw [closeAck_trace, drainedState_trace hsent, hclosed]
    by_cases h : a + 1 < s.nextSeq + drainCount a s <;> simp [h, drainedState]
  all_goals simp [drainedState]

/-- Settles O21: an ignored ACK changes nothing, an accepted one ends in the closed drained state. -/
theorem ackIsIgnoredOrAdvancesDrainsAndCloses : Obligations.AckIsIgnoredOrAdvancesDrainsAndCloses := by
  intro p s a
  rw [exec_pktAck]
  refine ⟨onAck_of_ignored, fun hbase hsent => ?_⟩
  intro k sent outstanding hnum hfit
  rw [onAck_of_accepted hbase hsent hnum hfit, closeAck_drainedState hsent]

/-! ### ON_TIMEOUT (R136 to R138) -/

/-- With nothing outstanding a TIMEOUT only clears the mirror bit (R138). -/
theorem onTimeout_of_nothingOutstanding {s : State} (h : s.base = s.nextSeq) :
    onTimeout s = { s with timerArmed := false } :=
  if_pos ((nothingOutstanding_iff (timerFired s)).mpr h)

/-- With something outstanding a TIMEOUT resends the stored range and restarts the timer (R136, R137). -/
theorem onTimeout_of_outstanding {s : State} (h : s.base ≠ s.nextSeq) :
    onTimeout s = { s with
      timerArmed := true
      trace := s.trace ++ (storedRange s.inFlight s.base (s.nextSeq - s.base)).map .transmit ++
        [.startTimer s.config.timerInterval] } :=
  if_neg (mt (nothingOutstanding_iff (timerFired s)).mp h)

/-- Under the invariant the store is empty exactly when nothing is outstanding (R23). -/
theorem inFlight_eq_nil_iff_of_inv {s : State} (hinv : Inv s) : s.inFlight = [] ↔ s.base = s.nextSeq := by
  obtain ⟨-, hle, -⟩ := hinv.window
  rw [← List.map_eq_nil_iff (f := Prod.fst), hinv.keys, List.range'_eq_nil_iff]
  omega

/-- Settles O26: the keys of the store are `base .. next_seq - 1`, so the range that TIMEOUT resends is the store. -/
theorem timeoutResendsEveryPacketInFlight : Obligations.TimeoutResendsEveryPacketInFlight := by
  intro s hinv
  have hnil := inFlight_eq_nil_iff_of_inv hinv
  rw [exec_timeout]
  refine ⟨fun hsome => ?_, fun hnone => ?_, ?_, hinv.timer.mp⟩
  · rw [onTimeout_of_outstanding (mt hnil.mpr hsome), storedRange_eq _ _ _ hinv.keys, List.map_map]
    rfl
  · rw [onTimeout_of_nothingOutstanding (hnil.mp hnone)]
  · rw [hinv.keys]
    exact List.pairwise_lt_range'

end Sys2Proof.Machine
end

section
/-! The receiver's answers (43_receiver.md): a corrupt byte string, data in order and data out of order as exact next
states. -/

namespace Sys2Proof.Machine

/-- The meaning of the PKT_DATA row is `onData`. -/
@[simp] theorem exec_pktData (p : Packet) (s : State) : exec (.pktData p) s = .next (onData p s) := rfl

/-- The meaning of the RX command is ON_PACKET of what DECODE returns. -/
@[simp] theorem exec_rx (bytes : Bytes) (s : State) : exec (.rx bytes) s = onPacket (decodePacket bytes) s := rfl

/-! ### RX by the result of DECODE (R146, R162) -/

/-- A byte string that DECODE rejects raises the corruption error. -/
theorem exec_rx_of_corrupt {bytes : Bytes} {e : CorruptionError} (h : decodePacket bytes = .err e) (s : State) :
    exec (.rx bytes) s = .next (takeCorruption e s) := by
  rw [exec_rx, h, onPacket]

/-- The RX of a valid data packet is what the PKT_DATA row does. -/
theorem exec_rx_of_data {bytes : Bytes} {p : Packet} (h : decodePacket bytes = .ok p) (hdata : p.isAck = false)
    (s : State) : exec (.rx bytes) s = exec (.pktData p) s := by
  rw [exec_rx, h, onPacket, hdata, exec_pktData, if_neg Bool.false_ne_true]

/-! ### A data packet by its sequence number (R148, R149) -/

theorem onData_of_in_order {p : Packet} {s : State} (h : seqOperand p = s.expectedSeq) :
    onData p s = acceptData p s :=
  if_pos h

theorem onData_of_out_of_order {p : Packet} {s : State} (h : seqOperand p ≠ s.expectedSeq) :
    onData p s = repeatAck s :=
  if_neg h

/-- The state after accepted data, field by field: its two actions, one after the other, are DELIVER and TRANSMIT. -/
theorem acceptData_eq (p : Packet) (s : State) :
    acceptData p s = { s with
      expectedSeq := s.expectedSeq + 1
      lastAckSent := ackPacket p.sequenceNumber
      trace := s.trace ++ [.deliver p.payload, .transmit (ackPacket p.sequenceNumber)] } := by
  apply state_ext
  case h10 => rw [acceptData_trace, List.append_assoc, List.singleton_append]
  all_goals rfl

/-- The bytes that R31 writes out for `last_ack_sent` are the canonical `ACK(0)`. -/
theorem resetAck_eq_ackPacket_zero : resetAck = ackPacket 0 := by decide

/-! ### The obligations -/

/-- Settles O28: both errors are answered alike, and right after reset the stored bytes are `ACK(0)`. -/
theorem corruptRxRepeatsLastAck : Obligations.CorruptRxRepeatsLastAck := by
  intro bytes hrejected
  obtain ⟨e, he⟩ : ∃ e, decodePacket bytes = .err e := hrejected.elim (⟨_, ·⟩) (⟨_, ·⟩)
  have hrx (s : State) : exec (.rx bytes) s = .next { s with trace := s.trace ++ [.transmit s.lastAckSent] } :=
    exec_rx_of_corrupt he s
  refine ⟨hrx, fun cfg => ?_⟩
  have hstored : (State.resetWith cfg).lastAckSent = encodePacket 0 0 true [] := resetAck_eq_ackPacket_zero
  rw [hrx, hstored]
  rfl

/-- Settles O29: the row accepts the data, and RX of the packet is the row. -/
theorem dataInOrderIsDeliveredAndAcknowledged : Obligations.DataInOrderIsDeliveredAndAcknowledged := by
  intro p s horder ack t
  have hrow : exec (.pktData p) s = .next t := by
    rw [exec_pktData, onData_of_in_order horder, acceptData_eq]
    rfl
  exact ⟨hrow, fun _ hok hdata => (exec_rx_of_data hok hdata s).trans hrow⟩

/-- Settles O30: the row repeats the stored ACK, and RX of the packet is the row. -/
theorem dataOutOfOrderRepeatsLastAck : Obligations.DataOutOfOrderRepeatsLastAck := by
  intro p s horder t
  have hrow : exec (.pktData p) s = .next t := by
    rw [exec_pktData, onData_of_out_of_order horder]
    rfl
  exact ⟨hrow, fun _ hok hdata => (exec_rx_of_data hok hdata s).trans hrow⟩

end Sys2Proof.Machine
end

section
/-! The configuration after an instruction and after a step (70_reset_and_hazards.md R211). -/

namespace Sys2Proof.Machine

/-- SUBMIT keeps the configuration, whether it sends or buffers. -/
theorem submit_config {payload : Bytes} {s t : State} (h : submit payload s = .next t) : t.config = s.config := by
  obtain ⟨-, ⟨-, -, rfl⟩ | ⟨-, -, rfl⟩⟩ := submit_next payload s t h
  · exact sendPacket_config s payload
  · exact setPending_config s _

/-- ON_ACK keeps the configuration, whether it ignores the ACK or drains and closes. -/
theorem onAck_config {a : Nat} {s t : State} (h : onAck a s = .next t) : t.config = s.config := by
  obtain ⟨-, rfl⟩ | ⟨-, -, k, -, rfl, -⟩ := onAck_next a s t h
  · rfl
  · rw [closeAck_config, setPending_config, sendAll_config, advanceBase_config]

/-- R211 for one instruction: none of the ten rows writes a configuration register. -/
theorem exec_config {i : Instr} {s t : State} (h : exec i s = .next t) : t.config = s.config := by
  obtain rfl | ⟨p, rfl, -⟩ | ⟨rfl, -⟩ | ⟨payload, -, hsubmit⟩ | ⟨p, hack, -⟩ | ⟨rfl, -⟩ | ⟨b, -, rfl⟩ | ⟨b, -, rfl⟩ |
    ⟨d, -, rfl⟩ | ⟨-, rfl⟩ := exec_next i s t h
  · rfl
  · exact acceptData_config s p
  · exact repeatAck_config s
  · exact submit_config hsubmit
  · exact onAck_config hack
  · exact onTimeout_config s
  · exact emit_config s _
  · exact emit_config s _
  · exact armTimer_config s d
  · exact disarmTimer_config s

/-- Settles O38: of the four things a step can do, only taking a reset input writes the configuration. -/
theorem configurationChangesOnlyAtReset : Obligations.ConfigurationChangesOnlyAtReset := by
  refine ⟨fun i s t hexec => exec_config hexec, fun s t hstep => ?_⟩
  obtain ⟨-, rfl⟩ | ⟨cfg, rest, hreset, -, rfl⟩ | ⟨w, rest, i, -, -, hexec⟩ | ⟨bytes, rest, -, -, rfl⟩ :=
    step_next s t hstep
  · exact .inl rfl
  · exact .inr ⟨rest, hreset⟩
  · exact .inl ((exec_config hexec).trans (beginCommand_config s rest))
  · exact .inl ((takeCorruption_config _ _).trans (beginCommand_config s rest))

end Sys2Proof.Machine
end

section
/-! The encodings (30_encoding.md): decoding and encoding undo each other, and what selects an instruction. -/

namespace Sys2Proof

/-! ### A packet as its bytes -/

/-- A byte string is its first `n` bytes, read one by one, and the rest. -/
theorem eq_map_byteAt_append_drop (B : Bytes) (n : Nat) (h : n ≤ B.length) :
    B = (List.range n).map (byteAt B) ++ B.drop n := by
  have hget : (List.range n).map (byteAt B) = B.take n := by
    apply List.ext_getElem
    · simp [h]
    · intro i hi _
      simp only [List.length_map, List.length_range] at hi
      simp [byteAt, List.getElem?_eq_getElem (Nat.lt_of_lt_of_le hi h)]
  rw [hget, List.take_append_drop]

/-- An `is_ack` byte that the encoder writes is written back as it was read (R64). -/
theorem ackByte_packetFields {B : Bytes} (h : byteAt B 10 = 0#8 ∨ byteAt B 10 = 1#8) :
    ackByte (packetFields B).isAck = byteAt B 10 := by
  rcases h with h | h <;> simp [packetFields, h, ackByte]

/-- Writing the fields that were read: a packet with the declared length and an `is_ack` byte of the encoder is the
packet of its own fields (R42, R60). -/
theorem packetBytes_packetFields {B : Bytes} (hlen : B.length = 15 + (u32be B 11).toNat)
    (hack : byteAt B 10 = 0#8 ∨ byteAt B 10 = 1#8) :
    packetBytes (packetFields B).sequenceNumber (packetFields B).acknowledgmentNumber (packetFields B).checksum
      (packetFields B).isAck (packetFields B).payload = B := by
  have hpayload : (packetFields B).payload = B.drop 15 :=
    List.take_of_length_le (by rw [List.length_drop, headerLen]; omega)
  have hdeclared : BitVec.ofNat 32 (B.drop 15).length = u32be B 11 := by
    rw [List.length_drop, hlen, Nat.add_sub_cancel_left, BitVec.ofNat_toNat, BitVec.setWidth_eq]
  have hbytes := eq_map_byteAt_append_drop B 15 (by omega)
  rw [packetBytes, hpayload, ackByte_packetFields hack, hdeclared]
  conv_rhs => rw [hbytes]
  simp only [packetFields, be32_u32be, be16_u16be]
  rfl

/-- The length test of R101 says that the declared length is that of the payload. -/
theorem payloadLength_of_agrees {p : Packet} (h : packetLengthAgrees p = true) :
    p.payload.length < fieldLimit ∧ BitVec.ofNat 32 p.payload.length = p.payloadLength := by
  have hlen : p.payload.length = p.payloadLength.toNat := beq_iff_eq.mp h
  rw [hlen]
  exact ⟨p.payloadLength.isLt, BitVec.eq_of_toNat_eq (by simp)⟩

/-- A packet whose length agrees is read back from its bytes (R60, R101). -/
theorem parsePacket_of_agrees {p : Packet} (h : packetLengthAgrees p = true) :
    parsePacket (packetBytes p.sequenceNumber p.acknowledgmentNumber p.checksum p.isAck p.payload) = some p := by
  obtain ⟨hfits, hdeclared⟩ := payloadLength_of_agrees h
  rw [parsePacket_packetBytes _ _ _ _ _ hfits, hdeclared]

/-! ### The decoder on each port -/

theorem decode_packet_of_parse {B : Bytes} {p : Packet} (h : parsePacket B = some p) :
    decode (.packet B) = .ok (packetInstr p) := by
  rw [decode, decodePacketWord, h]

/-- A packet word that is not truncated is the packet of its fields, whatever its checksum (R71). -/
theorem decode_packet_of_not_truncated {B : Bytes} (h : isTruncated B = false) :
    decode (.packet B) = .ok (packetInstr (packetFields B)) :=
  decode_packet_of_parse (by simp [parsePacket, h])

theorem decode_packet_of_truncated {B : Bytes} (h : isTruncated B = true) :
    decode (.packet B) = .error .truncatedPacket := by
  simp [decode, decodePacketWord, parsePacket, h]

theorem packetInstr_of_data {p : Packet} (h : p.isAck = false) : packetInstr p = .pktData p := by
  simp [packetInstr, h]

theorem packetInstr_of_ack {p : Packet} (h : p.isAck = true) : packetInstr p = .pktAck p := by
  simp [packetInstr, h]

/-- A byte string that holds what its header declares is not truncated (R108, R109). -/
theorem isTruncated_eq_false {B : Bytes} (h : 15 + (u32be B 11).toNat ≤ B.length) : isTruncated B = false := by
  rw [← Bool.not_eq_true, isTruncated_iff]
  exact Nat.not_lt.mpr h

/-- The encoder writes a packet by its kind. -/
theorem encode_packetInstr (p : Packet) : encode (packetInstr p) =
    .packet (packetBytes p.sequenceNumber p.acknowledgmentNumber p.checksum p.isAck p.payload) := by
  unfold packetInstr
  cases hkind : p.isAck <;> rfl

/-- Decoding the word of a packet gives its row and the packet back. -/
theorem decode_encode_packetInstr {p : Packet} (h : packetLengthAgrees p = true) :
    decode (encode (packetInstr p)) = .ok (packetInstr p) := by
  rw [encode_packetInstr]
  exact decode_packet_of_parse (parsePacket_of_agrees h)

/-- Settles O13: a packet row is read back by its fields, and every code of a port selects its own row. -/
theorem decodeOfEncodeIsIdentity : Obligations.DecodeOfEncodeIsIdentity := by
  intro i hwf
  cases i with
  | pktData p =>
    simp only [Instr.wellFormed, Bool.and_eq_true, Bool.not_eq_true'] at hwf
    obtain ⟨hdata, hlen⟩ := hwf
    rw [← packetInstr_of_data hdata]
    exact decode_encode_packetInstr hlen
  | pktAck p =>
    simp only [Instr.wellFormed, Bool.and_eq_true] at hwf
    obtain ⟨hack, hlen⟩ := hwf
    rw [← packetInstr_of_ack hack]
    exact decode_encode_packetInstr hlen
  | submit | rx | timeout | cmdReserved | transmit | deliver | startTimer | stopTimer => rfl

/-- Encoding what a command word decodes to, with no operand beside TIMEOUT (R72). -/
theorem encode_decodeCommand (op : BitVec 2) (x : Bytes) (h : op = 0b10#2 → x = []) :
    encode (decodeCommand op x) = .command op x := by
  obtain ⟨rfl, hi⟩ | ⟨rfl, hi⟩ | ⟨rfl, hi⟩ | ⟨rfl, hi⟩ := Machine.decodeCommand_cases op x <;> rw [hi, encode]
  rw [h rfl]

/-- Encoding what an action word decodes to, with zero operands where the code reads none (R74). -/
theorem encode_decodeAction (act : BitVec 2) (x : Bytes) (d : Duration)
    (hbytes : act = 0b10#2 ∨ act = 0b11#2 → x = []) (hduration : act ≠ 0b10#2 → d = 0) :
    encode (decodeAction act x d) = .action act x d := by
  obtain ⟨rfl, hi⟩ | ⟨rfl, hi⟩ | ⟨rfl, hi⟩ | ⟨rfl, hi⟩ := Machine.decodeAction_cases act x d <;> rw [hi, encode]
  · rw [hduration (by decide)]
  · rw [hduration (by decide)]
  · rw [hbytes (.inl rfl)]
  · rw [hbytes (.inr rfl), hduration (by decide)]

/-- Settles O14: on the two code ports by the four codes, on the packet port by the fields of the header. -/
theorem encodeOfDecodeIsIdentity : Obligations.EncodeOfDecodeIsIdentity := by
  refine ⟨fun op x i hi hx => ?_, fun act x d i hi hx hd => ?_, fun B i hi hlen hack => ?_⟩
  · cases hi
    exact encode_decodeCommand op x hx
  · cases hi
    exact encode_decodeAction act x d hx hd
  · rw [decode_packet_of_not_truncated (isTruncated_eq_false hlen.ge)] at hi
    cases hi
    rw [encode_packetInstr, packetBytes_packetFields hlen hack]

/-- Settles O15: the kind is the `is_ack` field of the packet read. -/
theorem packetKindFollowsIsAckByte : Obligations.PacketKindFollowsIsAckByte := by
  intro B hlen
  have hdecode := decode_packet_of_not_truncated (isTruncated_eq_false hlen)
  refine ⟨fun hzero => ⟨packetFields B, ?_⟩, fun hnonzero => ⟨packetFields B, ?_⟩⟩
  · rw [hdecode, packetInstr_of_data]
    rw [← Bool.not_eq_true, packetFields_isAck_iff]
    exact not_not.mpr hzero
  · rw [hdecode, packetInstr_of_ack ((packetFields_isAck_iff B).mpr hnonzero)]

/-- Settles O16: ten closed words, each read by the decoder. -/
theorem wordsOfTheSpecDecode : Obligations.WordsOfTheSpecDecode := by
  unfold Obligations.WordsOfTheSpecDecode
  decide

end Sys2Proof
end

section
/-! What a command that completes has done (44_endpoint.md R160 to R163), one case an effect. -/

namespace Sys2Proof.Machine

open Sys2Proof.Safety

/-! ### The state after an accepted ACK (R132 to R134) -/

/-- The state after an accepted ACK `a` that drains the first `k` waiting payloads. -/
def acknowledgedState (a k : Nat) (s : State) : State :=
  closeAck (setPending (s.pending.drop k) (sendAll (s.pending.take k) (advanceBase a s)))

section

variable (a k : Nat) (s : State)

@[simp] theorem acknowledgedState_base : (acknowledgedState a k s).base = a + 1 := by simp [acknowledgedState]
@[simp] theorem acknowledgedState_pending : (acknowledgedState a k s).pending = s.pending.drop k := by
  simp [acknowledgedState]
@[simp] theorem acknowledgedState_expectedSeq : (acknowledgedState a k s).expectedSeq = s.expectedSeq := by
  simp [acknowledgedState]
@[simp] theorem acknowledgedState_lastAckSent : (acknowledgedState a k s).lastAckSent = s.lastAckSent := by
  simp [acknowledgedState]
@[simp] theorem acknowledgedState_config : (acknowledgedState a k s).config = s.config := by simp [acknowledgedState]
@[simp] theorem acknowledgedState_inbox : (acknowledgedState a k s).inbox = s.inbox := by simp [acknowledgedState]

variable {a k s}

theorem acknowledgedState_nextSeq (hcount : k ≤ s.pending.length) :
    (acknowledgedState a k s).nextSeq = s.nextSeq + k := by
  simp [acknowledgedState, hcount]

/-- The mirror bit says whether anything is outstanding (R134). -/
theorem acknowledgedState_timerArmed (hcount : k ≤ s.pending.length) :
    (acknowledgedState a k s).timerArmed = true ↔ a + 1 ≠ s.nextSeq + k := by
  rw [acknowledgedState, closeAck_timerArmed, Bool.not_eq_true', ← Bool.not_eq_true, nothingOutstanding_iff]
  simp [hcount]

/-- The trace: that of the drain, then the closing timer action. -/
theorem acknowledgedState_trace (hsent : a < s.nextSeq) :
    (acknowledgedState a k s).trace = s.trace ++
      drainActions s.config.timerInterval (decide (a + 1 = s.nextSeq))
        ((numberedPackets s.nextSeq (s.pending.take k)).map Prod.snd) ++
      [if (acknowledgedState a k s).timerArmed then .startTimer s.config.timerInterval else .stopTimer] := by
  have hdrain := sendAll_trace (s.pending.take k) (advanceBase a s) hsent
  have houtstanding : nothingOutstanding (advanceBase a s) = decide (a + 1 = s.nextSeq) := rfl
  rw [houtstanding] at hdrain
  rw [acknowledgedState, closeAck_trace, closeAck_timerArmed, setPending_trace, hdrain]
  cases nothingOutstanding (setPending (s.pending.drop k) (sendAll (s.pending.take k) (advanceBase a s))) <;> simp

end

/-- ON_ACK when it answers a next state: an ACK that is ignored (R131), or one that advances and drains. -/
theorem onAck_next_cases {a : Nat} {s t : State} (h : onAck a s = .next t) :
    t = s ∨ (s.base ≤ a ∧ a < s.nextSeq ∧ ∃ k ≤ s.pending.length, t = acknowledgedState a k s) := by
  obtain ⟨-, rfl⟩ | ⟨hbase, hsent, k, hcount, rfl, -⟩ := onAck_next a s t h
  · exact .inl rfl
  · exact .inr ⟨hbase, hsent, k, hcount, rfl⟩

/-! ### What a command that completes has done -/

/-- Everything the command of code `op` with operand `x` can do to a state when it answers a next state (R72, R121, R130,
R136, R146). -/
inductive CommandEffect (x : Bytes) (s : State) : BitVec 2 → State → Prop where
  /-- SUBMIT with the window open (R123). -/
  | sent (hfit : x.length ≤ s.config.maxPayload) (hopen : s.nextSeq - s.base < s.config.windowSize)
      (hnum : s.nextSeq < fieldLimit) : CommandEffect x s 0b00#2 (sendPacket x s)
  /-- SUBMIT with the window full (R122). -/
  | buffered (hfit : x.length ≤ s.config.maxPayload) (hfull : s.config.windowSize ≤ s.nextSeq - s.base)
      (hroom : pendingHasRoom s = true) : CommandEffect x s 0b00#2 (setPending (s.pending ++ [x]) s)
  /-- RX of data in order (R148). -/
  | accepted (p : Packet) (hok : decodePacket x = .ok p) (hdata : p.isAck = false)
      (horder : seqOperand p = s.expectedSeq) : CommandEffect x s 0b01#2 (acceptData p s)
  /-- RX of a corrupt byte string or of data out of order (R147, R149). -/
  | repeated : CommandEffect x s 0b01#2 (repeatAck s)
  /-- RX of an ACK that is ignored (R131). -/
  | ackIgnored : CommandEffect x s 0b01#2 s
  /-- RX of an ACK that advances `base` and drains `k` payloads (R132 to R134). -/
  | acknowledged (p : Packet) (k : Nat) (hok : decodePacket x = .ok p) (hack : p.isAck = true)
      (hbase : s.base ≤ ackOperand p) (hsent : ackOperand p < s.nextSeq) (hcount : k ≤ s.pending.length)
      (hfit : ∀ payload ∈ s.pending.take k, payload.length ≤ s.config.maxPayload)
      (hnum : k = 0 ∨ s.nextSeq + k ≤ fieldLimit ∧ s.nextSeq + k - 1 - (ackOperand p + 1) < s.config.windowSize)
      (hdrained : s.pending.drop k = [] ∨ s.config.windowSize ≤ s.nextSeq + k - (ackOperand p + 1)) :
      CommandEffect x s 0b01#2 (acknowledgedState (ackOperand p) k s)
  /-- TIMEOUT (R136 to R138). -/
  | timedOut : CommandEffect x s 0b10#2 (onTimeout s)
  /-- The reserved code under the policy that ignores it (R73). -/
  | reservedIgnored : CommandEffect x s 0b11#2 s

/-- The RX command when it answers a next state, by the three results of DECODE and ON_PACKET. -/
theorem commandEffect_of_rx {x : Bytes} {s t : State} (h : execRx x s = .next t) : CommandEffect x s 0b01#2 t := by
  obtain ⟨e, -, hrx⟩ | ⟨p, hok, hdata, hrx⟩ | ⟨p, hok, hack, hrx⟩ := execRx_cases x s <;> rw [hrx] at h
  · cases h
    exact .repeated
  · cases h
    obtain ⟨horder, hdo⟩ | ⟨-, hdo⟩ := onData_cases p s <;> rw [hdo]
    · exact .accepted p hok hdata horder
    · exact .repeated
  · obtain ⟨-, rfl⟩ | ⟨hbase, hsent, k, hcount, rfl, hfit, hnum, hdrained⟩ := onAck_next _ s t h
    · exact .ackIgnored
    · exact .acknowledged p k hok hack hbase hsent hcount hfit hnum hdrained

/-- Every command that answers a next state has one of the effects of its code. -/
theorem commandEffect_of_exec {op : BitVec 2} {x : Bytes} {s t : State}
    (h : exec (decodeCommand op x) s = .next t) : CommandEffect x s op t := by
  obtain ⟨rfl, hi⟩ | ⟨rfl, hi⟩ | ⟨rfl, hi⟩ | ⟨rfl, hi⟩ := decodeCommand_cases op x <;> rw [hi] at h
  · obtain ⟨hfit, ⟨hopen, hnum, rfl⟩ | ⟨hfull, hroom, rfl⟩⟩ := submit_next x s t h
    · exact .sent hfit hopen hnum
    · exact .buffered hfit hfull hroom
  · exact commandEffect_of_rx h
  · cases h
    exact .timedOut
  · obtain rfl := execCmdReserved_next x s t h
    exact .reservedIgnored

/-- The step on a queued command word is the command on the state with that word taken (R160). -/
theorem step_command {s : State} {op : BitVec 2} {x : Bytes} {rest : List Input}
    (h : s.inbox = .word (.command op x) :: rest) :
    step s = exec (decodeCommand op x) (beginCommand rest s) := by
  rw [step_word s _ rest h, decode]

/-- The effect of a step on a queued command word. -/
theorem commandEffect_of_step {s t : State} {op : BitVec 2} {x : Bytes} {rest : List Input}
    (hinbox : s.inbox = .word (.command op x) :: rest) (h : step s = .next t) :
    CommandEffect x (beginCommand rest s) op t :=
  commandEffect_of_exec ((step_command hinbox).symm.trans h)

/-- A step whose next input is a command has an effect of that command (R72, R160). -/
theorem commandEffect_of_nextIsCommand {s t : State} (hcommand : nextIsCommand s = true) (h : step s = .next t) :
    ∃ op x rest, s.inbox = .word (.command op x) :: rest ∧ CommandEffect x (beginCommand rest s) op t := by
  obtain ⟨op, x, rest, hinbox⟩ : ∃ op x rest, s.inbox = .word (.command op x) :: rest := by
    unfold nextIsCommand at hcommand
    split at hcommand
    next op x rest hinbox => exact ⟨op, x, rest, hinbox⟩
    next => cases hcommand
  exact ⟨op, x, rest, hinbox, commandEffect_of_step hinbox h⟩

end Sys2Proof.Machine
end

section
/-! The invariants I1 to I7 (10_state.md R33): reset meets them and every step keeps them. -/

namespace Sys2Proof.Machine

open Sys2Proof.Safety

/-! ### Consequences of the invariants -/

/-- The numbers of the entries lie between `base` and `next_seq` (R23). -/
theorem key_bounds_of_inv {s : State} (hinv : Inv s) {e : Nat × Bytes} (he : e ∈ s.inFlight) :
    s.base ≤ e.1 ∧ e.1 < s.nextSeq := by
  have hkey : e.1 ∈ s.inFlight.map Prod.fst := List.mem_map_of_mem he
  obtain ⟨-, hle, -⟩ := hinv.window
  rw [hinv.keys, List.mem_range'_1] at hkey
  omega

/-- Nothing waits while the window is open (R26). -/
theorem pending_nil_of_inv {s : State} (hinv : Inv s) (hopen : s.nextSeq - s.base < s.config.windowSize) :
    s.pending = [] := by
  by_contra hwait
  have hfull := hinv.pending_full hwait
  omega

theorem maxPayload_lt_of_inv {s : State} (hinv : Inv s) : s.config.maxPayload < fieldLimit := by
  have hlegal := hinv.config_legal
  simp only [configLegal, Bool.and_eq_true, decide_eq_true_eq] at hlegal
  exact hlegal.2

/-! ### Each effect keeps the invariants -/

/-- An action alone changes only the trace, of which the invariants say nothing. -/
theorem inv_emit {s : State} (hinv : Inv s) (a : Action) : Inv (emit a s) := { hinv with }

theorem inv_repeatAck {s : State} (hinv : Inv s) : Inv (repeatAck s) := inv_emit hinv _

/-- Taking an input begins a command in a state that meets the invariants. -/
theorem inv_beginCommand {s : State} (hinv : Inv s) {i : Input} {rest : List Input} (h : s.inbox = i :: rest) :
    Inv (beginCommand rest s) := by
  have hinputs := hinv.inputs
  rw [h, List.all_cons, Bool.and_eq_true] at hinputs
  exact { hinv with inputs := hinputs.2 }

/-- Accepted data counts `expected_seq` and stores the ACK of its number; that number has 32 bits (I6, I7). -/
theorem inv_acceptData {s : State} (hinv : Inv s) {p : Packet} (horder : seqOperand p = s.expectedSeq) :
    Inv (acceptData p s) := by
  have hlt := seqOperand_lt p
  have hack : ackPacket p.sequenceNumber = ackPacket (BitVec.ofNat 32 (s.expectedSeq + 1 - 1)) := by
    rw [Nat.add_sub_cancel, ← horder, seqOperand, BitVec.ofNat_toNat, BitVec.setWidth_eq]
  exact { hinv with
    last_ack := ⟨Nat.le_add_left 1 _, hack⟩
    bounds := ⟨hinv.bounds.1, by rw [acceptData_expectedSeq]; omega⟩ }

/-- A new packet stands at the end of the store (R123). -/
theorem sendPacket_inFlight_of_inv {s : State} (hinv : Inv s) (payload : Bytes) :
    (sendPacket payload s).inFlight = s.inFlight ++ [(s.nextSeq, dataPacket s.nextSeq payload)] := by
  rw [sendPacket_inFlight, storeInsert_append _ _ _ fun e he => (key_bounds_of_inv hinv he).2]

/-- A packet sent with the window open extends the keys by `next_seq` (I1, I2); nothing waits then (I4). -/
theorem inv_sendPacket {s : State} (hinv : Inv s) {payload : Bytes} (hfit : payload.length ≤ s.config.maxPayload)
    (hopen : s.nextSeq - s.base < s.config.windowSize) (hnum : s.nextSeq < fieldLimit) :
    Inv (sendPacket payload s) := by
  obtain ⟨hpos, hle, -⟩ := hinv.window
  have hstore := sendPacket_inFlight_of_inv hinv payload
  have hkeys : (sendPacket payload s).inFlight.map Prod.fst = List.range' s.base (s.nextSeq + 1 - s.base) := by
    rw [hstore, List.map_append, hinv.keys, Nat.sub_add_comm hle, List.range'_concat]
    simp [Nat.add_sub_cancel' hle]
  have hpackets : ∀ e ∈ (sendPacket payload s).inFlight, ∃ q : Bytes,
      q.length ≤ s.config.maxPayload ∧ e.2 = dataPacket e.1 q := by
    intro e he
    rw [hstore, List.mem_append, List.mem_singleton] at he
    obtain he | rfl := he
    · exact hinv.packets e he
    · exact ⟨payload, hfit, rfl⟩
  have htimer : (sendPacket payload s).timerArmed = true := by
    have hnil := inFlight_eq_nil_iff_of_inv hinv
    rw [sendPacket_timerArmed, Bool.or_eq_true, nothingOutstanding_iff, hinv.timer, ← hnil]
    exact em _
  constructor
  case window => simp only [sendPacket_base, sendPacket_nextSeq, sendPacket_config]; omega
  case keys => simpa using hkeys
  case packets => simpa using hpackets
  case pending_full => simp [pending_nil_of_inv hinv hopen]
  case timer =>
    rw [htimer, hstore]
    simp
  case bounds => exact ⟨by simpa using hnum, by simpa using hinv.bounds.2⟩
  case config_legal => simpa using hinv.config_legal
  case last_ack => simpa using hinv.last_ack
  case payloads => simpa using hinv.payloads
  case depth => simpa using hinv.depth
  case inputs => simpa using hinv.inputs

/-- A payload that fits waits at the back while the window is full, in a queue that has room (I4, R225). -/
theorem inv_setPending_append {s : State} (hinv : Inv s) {payload : Bytes}
    (hfit : payload.length ≤ s.config.maxPayload) (hfull : s.config.windowSize ≤ s.nextSeq - s.base)
    (hroom : pendingHasRoom s = true) : Inv (setPending (s.pending ++ [payload]) s) := by
  have hwindow := hinv.window
  refine { hinv with
    pending_full := fun _ => ?_
    payloads := fun q hq => ?_
    depth := fun d hd => ?_ }
  · simp only [setPending_nextSeq, setPending_base, setPending_config]
    omega
  · rw [setPending_pending, List.mem_append, List.mem_singleton] at hq
    obtain hq | rfl := hq
    · exact hinv.payloads q hq
    · exact hfit
  · have hlt := (pendingHasRoom_iff s).mp hroom d hd
    simp only [setPending_pending, List.length_append, List.length_singleton]
    omega

/-- The keys left when the entries up to `hi` are removed from keys that run on from `lo` (R132). -/
theorem storeRemoveRange_keys {m : List (Nat × Bytes)} {lo n hi : Nat} (h : m.map Prod.fst = List.range' lo n)
    (hlo : lo ≤ hi) (hhi : hi < lo + n) :
    (storeRemoveRange m lo hi).map Prod.fst = List.range' (hi + 1) (lo + n - (hi + 1)) := by
  have hfilter : (storeRemoveRange m lo hi).map Prod.fst =
      (m.map Prod.fst).filter fun k => !(decide (lo ≤ k) && decide (k ≤ hi)) := by
    rw [List.filter_map]
    rfl
  have hsplit : List.range' lo n = List.range' lo (hi + 1 - lo) ++ List.range' (hi + 1) (lo + n - (hi + 1)) := by
    have hstart : hi + 1 = lo + (hi + 1 - lo) := by omega
    conv_rhs => rw [hstart]
    rw [Nat.add_sub_cancel_left, List.range'_append_1]
    congr 1
    omega
  rw [hfilter, h, hsplit, List.filter_append, List.filter_eq_nil_iff.mpr, List.filter_eq_self.mpr, List.nil_append]
  · intro k hk
    rw [List.mem_range'_1] at hk
    simp only [Bool.not_eq_true', Bool.and_eq_false_iff, decide_eq_false_iff_not]
    omega
  · intro k hk
    rw [List.mem_range'_1] at hk
    simp only [Bool.not_eq_true', Bool.not_eq_false, Bool.and_eq_true, decide_eq_true_eq]
    omega

theorem mem_of_mem_storeRemoveRange {m : List (Nat × Bytes)} {lo hi : Nat} {e : Nat × Bytes}
    (h : e ∈ storeRemoveRange m lo hi) : e ∈ m :=
  List.mem_of_mem_filter h

/-- The store after an accepted ACK: what was not acknowledged, then the packets of the drained payloads (R132, R133). -/
theorem acknowledgedState_inFlight_of_inv {s : State} (hinv : Inv s) (a k : Nat) :
    (acknowledgedState a k s).inFlight =
      storeRemoveRange s.inFlight s.base a ++ numberedPackets s.nextSeq (s.pending.take k) := by
  rw [acknowledgedState, closeAck_inFlight, setPending_inFlight, sendAll_inFlight]
  · rfl
  · intro e he
    exact (key_bounds_of_inv hinv (mem_of_mem_storeRemoveRange he)).2

/-- The keys of that store run on from `a + 1` to the last number given out (R23). -/
theorem acknowledgedState_keys_of_inv {s : State} (hinv : Inv s) {a k : Nat} (hbase : s.base ≤ a)
    (hsent : a < s.nextSeq) (hcount : k ≤ s.pending.length) :
    (acknowledgedState a k s).inFlight.map Prod.fst = List.range' (a + 1) (s.nextSeq + k - (a + 1)) := by
  have hmiddle : s.nextSeq = a + 1 + (s.base + (s.nextSeq - s.base) - (a + 1)) := by omega
  rw [acknowledgedState_inFlight_of_inv hinv, List.map_append, storeRemoveRange_keys hinv.keys hbase (by omega),
    numberedPackets_keys, List.length_take_of_le hcount]
  conv_lhs => arg 2; rw [hmiddle]
  rw [List.range'_append_1]
  congr 1
  omega

/-- An accepted ACK moves the window over the acknowledged numbers and fills it from what waits (I1 to I5). -/
theorem inv_acknowledgedState {s : State} (hinv : Inv s) {a k : Nat} (hbase : s.base ≤ a) (hsent : a < s.nextSeq)
    (hcount : k ≤ s.pending.length) (hfit : ∀ payload ∈ s.pending.take k, payload.length ≤ s.config.maxPayload)
    (hnum : k = 0 ∨ s.nextSeq + k ≤ fieldLimit ∧ s.nextSeq + k - 1 - (a + 1) < s.config.windowSize)
    (hdrained : s.pending.drop k = [] ∨ s.config.windowSize ≤ s.nextSeq + k - (a + 1)) :
    Inv (acknowledgedState a k s) := by
  have hwindow := hinv.window
  have hbounds := hinv.bounds
  have hnext := acknowledgedState_nextSeq (a := a) hcount
  have hkeys := acknowledgedState_keys_of_inv hinv hbase hsent hcount
  constructor
  case window =>
    rw [acknowledgedState_base, acknowledgedState_config, hnext]
    omega
  case keys => rw [acknowledgedState_base, hnext, hkeys]
  case packets =>
    intro e he
    rw [acknowledgedState_inFlight_of_inv hinv, List.mem_append] at he
    rw [acknowledgedState_config]
    obtain he | he := he
    · exact hinv.packets e (mem_of_mem_storeRemoveRange he)
    · obtain ⟨payload, hmem, heq⟩ := numberedPackets_mem _ _ e he
      exact ⟨payload, hfit payload hmem, heq⟩
  case pending_full =>
    rw [acknowledgedState_pending, acknowledgedState_base, acknowledgedState_config, hnext]
    intro hwait
    have hfull := hdrained.resolve_left hwait
    omega
  case timer =>
    rw [acknowledgedState_timerArmed hcount, Ne, Ne, ← List.map_eq_nil_iff (f := Prod.fst), hkeys,
      List.range'_eq_nil_iff]
    omega
  case bounds =>
    rw [acknowledgedState_expectedSeq, hnext]
    omega
  case payloads =>
    intro payload hmem
    rw [acknowledgedState_pending] at hmem
    rw [acknowledgedState_config]
    exact hinv.payloads payload (List.mem_of_mem_drop hmem)
  case depth =>
    intro d hd
    have hdepth := hinv.depth d (by simpa using hd)
    rw [acknowledgedState_pending, List.length_drop]
    omega
  case config_legal => simpa using hinv.config_legal
  case last_ack => simpa using hinv.last_ack
  case inputs => simpa using hinv.inputs

/-- TIMEOUT writes the mirror bit, which then says whether anything is in flight (I5). -/
theorem inv_onTimeout {s : State} (hinv : Inv s) : Inv (onTimeout s) := by
  have htimer : (onTimeout s).timerArmed = true ↔ (onTimeout s).inFlight ≠ [] := by
    rw [onTimeout_timerArmed, onTimeout_inFlight, Bool.not_eq_true', ← Bool.not_eq_true, nothingOutstanding_iff, Ne,
      inFlight_eq_nil_iff_of_inv hinv]
  by_cases h : s.base = s.nextSeq
  · rw [onTimeout_of_nothingOutstanding h] at htimer ⊢
    exact { hinv with timer := htimer }
  · rw [onTimeout_of_outstanding h] at htimer ⊢
    exact { hinv with timer := htimer }

/-- Every effect of a command keeps the invariants. -/
theorem inv_of_commandEffect {x : Bytes} {s t : State} {op : BitVec 2} (hinv : Inv s)
    (h : CommandEffect x s op t) : Inv t := by
  cases h with
  | sent hfit hopen hnum => exact inv_sendPacket hinv hfit hopen hnum
  | buffered hfit hfull hroom => exact inv_setPending_append hinv hfit hfull hroom
  | accepted p _ _ horder => exact inv_acceptData hinv horder
  | repeated => exact inv_repeatAck hinv
  | ackIgnored => exact hinv
  | acknowledged p k _ _ hbase hsent hcount hfit hnum hdrained =>
    exact inv_acknowledgedState hinv hbase hsent hcount hfit hnum hdrained
  | timedOut => exact inv_onTimeout hinv
  | reservedIgnored => exact hinv

/-! ### Reset and step -/

/-- The numbers after reset are far below `2^32` (R31). -/
theorem one_le_fieldLimit : 1 ≤ fieldLimit := by decide

/-- The reset state of a legal configuration meets the invariants, whatever legal input is queued behind it. -/
theorem inv_resetWith {cfg : Config} (hlegal : configLegal cfg = true) {rest : List Input}
    (hinputs : rest.all inputFromEnvironment = true) : Inv { State.resetWith cfg with inbox := rest } where
  config_legal := hlegal
  window := ⟨le_rfl, le_rfl, Nat.le_add_right 1 _⟩
  keys := rfl
  packets := fun _ he => absurd he List.not_mem_nil
  pending_full := fun hwait => absurd rfl hwait
  timer := by simp [State.resetWith]
  last_ack := ⟨le_rfl, resetAck_eq_ackPacket_zero⟩
  bounds := ⟨one_le_fieldLimit, one_le_fieldLimit⟩
  payloads := fun _ hmem => absurd hmem List.not_mem_nil
  depth := fun _ _ => Nat.zero_le _
  inputs := hinputs

/-- Settles O44: both are reset states of a legal configuration with nothing queued. -/
theorem resetMeetsInvariants : Obligations.ResetMeetsInvariants :=
  ⟨inv_resetWith (cfg := defaultConfig) (by decide) rfl, fun _ hlegal => inv_resetWith hlegal rfl⟩

/-- Under the invariants a queued word is a command word (log entry 6). -/
theorem queued_word_of_inv {s : State} (hinv : Inv s) {w : PortWord} {rest : List Input}
    (h : s.inbox = .word w :: rest) : ∃ op x, w = .command op x := by
  have hinputs := hinv.inputs
  rw [h, List.all_cons, Bool.and_eq_true] at hinputs
  cases w with
  | command op x => exact ⟨op, x, rfl⟩
  | packet => exact absurd hinputs.1 Bool.false_ne_true
  | action => exact absurd hinputs.1 Bool.false_ne_true

/-- Settles O45: an idle step holds the state, a reset gives the reset state, and a queued word is a command, whose
every effect keeps the invariants. -/
theorem everyStepKeepsInvariants : Obligations.EveryStepKeepsInvariants := by
  intro s t hinv hstep
  obtain ⟨-, rfl⟩ | ⟨cfg, rest, hinbox, hlegal, rfl⟩ | ⟨w, rest, i, hinbox, -, -⟩ | ⟨bytes, rest, hinbox, -, -⟩ :=
    step_next s t hstep
  · exact hinv
  · have hrest : (beginCommand rest s).inbox.all inputFromEnvironment = true := (inv_beginCommand hinv hinbox).inputs
    exact inv_resetWith hlegal hrest
  · obtain ⟨op, x, rfl⟩ := queued_word_of_inv hinv hinbox
    exact inv_of_commandEffect (inv_beginCommand hinv hinbox) (commandEffect_of_step hinbox hstep)
  · obtain ⟨op, x, hword⟩ := queued_word_of_inv hinv hinbox
    cases hword

end Sys2Proof.Machine
end

section
/-! The action trace of one command (44_endpoint.md R165 to R169): what it transmits and delivers, its timer actions and
its length. -/

namespace Sys2Proof.Machine

open Sys2Proof.Safety

/-! ### Reading a trace -/

@[simp] theorem traceTransmits_nil : traceTransmits [] = [] := rfl
@[simp] theorem traceTransmits_transmit (b : Bytes) (l : List Action) :
    traceTransmits (.transmit b :: l) = b :: traceTransmits l := rfl
@[simp] theorem traceTransmits_deliver (q : Bytes) (l : List Action) :
    traceTransmits (.deliver q :: l) = traceTransmits l := rfl
@[simp] theorem traceTransmits_startTimer (d : Duration) (l : List Action) :
    traceTransmits (.startTimer d :: l) = traceTransmits l := rfl
@[simp] theorem traceTransmits_stopTimer (l : List Action) :
    traceTransmits (.stopTimer :: l) = traceTransmits l := rfl
@[simp] theorem traceTransmits_append (l l' : List Action) :
    traceTransmits (l ++ l') = traceTransmits l ++ traceTransmits l' := List.filterMap_append

@[simp] theorem traceTransmits_map_transmit (packets : List Bytes) :
    traceTransmits (packets.map .transmit) = packets := by
  induction packets with
  | nil => rfl
  | cons b packets ih => rw [List.map_cons, traceTransmits_transmit, ih]

@[simp] theorem traceDelivers_nil : traceDelivers [] = [] := rfl
@[simp] theorem traceDelivers_transmit (b : Bytes) (l : List Action) :
    traceDelivers (.transmit b :: l) = traceDelivers l := rfl
@[simp] theorem traceDelivers_deliver (q : Bytes) (l : List Action) :
    traceDelivers (.deliver q :: l) = q :: traceDelivers l := rfl
@[simp] theorem traceDelivers_startTimer (d : Duration) (l : List Action) :
    traceDelivers (.startTimer d :: l) = traceDelivers l := rfl
@[simp] theorem traceDelivers_stopTimer (l : List Action) :
    traceDelivers (.stopTimer :: l) = traceDelivers l := rfl
@[simp] theorem traceDelivers_append (l l' : List Action) :
    traceDelivers (l ++ l') = traceDelivers l ++ traceDelivers l' := List.filterMap_append

@[simp] theorem traceDelivers_map_transmit (packets : List Bytes) :
    traceDelivers (packets.map .transmit) = [] := by
  induction packets with
  | nil => rfl
  | cons b packets ih => rw [List.map_cons, traceDelivers_transmit, ih]

/-- The mirror follows one trace after the other (R18). -/
theorem mirrorAfter_append (b : Bool) (l l' : List Action) :
    mirrorAfter b (l ++ l') = mirrorAfter (mirrorAfter b l) l' := by
  induction l generalizing b with
  | nil => rfl
  | cons a l ih => cases a <;> exact ih _

/-- After a single timer action the mirror says which it was (R18). -/
theorem mirrorAfter_timerAction (b c : Bool) (d : Duration) :
    mirrorAfter b [if c then .startTimer d else .stopTimer] = c := by
  cases c <;> rfl

/-! ### The actions of a drain (R133) -/

@[simp] theorem traceTransmits_drainActions (d : Duration) (idle : Bool) (sent : List Bytes) :
    traceTransmits (drainActions d idle sent) = sent := by
  cases sent <;> cases idle <;> simp [drainActions]

@[simp] theorem traceDelivers_drainActions (d : Duration) (idle : Bool) (sent : List Bytes) :
    traceDelivers (drainActions d idle sent) = [] := by
  cases sent <;> cases idle <;> simp [drainActions]

/-- A drain starts the timer with the interval it is given, if at all. -/
theorem startTimer_mem_drainActions {d e : Duration} {idle : Bool} {sent : List Bytes}
    (h : Action.startTimer e ∈ drainActions d idle sent) : e = d := by
  cases sent with
  | nil => exact absurd h List.not_mem_nil
  | cons pkt rest =>
    cases idle
    · simp [drainActions] at h
    · simpa [drainActions] using h

/-- A drain emits one action a packet, and one more at most. -/
theorem drainActions_length_le (d : Duration) (idle : Bool) (sent : List Bytes) :
    (drainActions d idle sent).length ≤ sent.length + 1 := by
  cases sent <;> cases idle <;> simp [drainActions]

/-! ### The trace of a TIMEOUT (R136 to R138) -/

theorem onTimeout_trace (s : State) :
    (onTimeout s).trace = s.trace ++ if s.base = s.nextSeq then [] else
      (storedRange s.inFlight s.base (s.nextSeq - s.base)).map .transmit ++ [.startTimer s.config.timerInterval] := by
  by_cases h : s.base = s.nextSeq
  · rw [onTimeout_of_nothingOutstanding h, if_pos h, List.append_nil]
  · rw [onTimeout_of_outstanding h, if_neg h, List.append_assoc]

/-! ### What one command delivers (R151) -/

/-- Only accepted data delivers, and only accepted data counts `expected_seq`. -/
theorem delivered_of_commandEffect {x : Bytes} {s t : State} {op : BitVec 2} (htrace : s.trace = [])
    (h : CommandEffect x s op t) :
    (t.expectedSeq = s.expectedSeq ∧ traceDelivers t.trace = []) ∨
    (t.expectedSeq = s.expectedSeq + 1 ∧ op = 0b01#2 ∧ ∃ p, decodePacket x = .ok p ∧ p.isAck = false ∧
      seqOperand p = s.expectedSeq ∧ traceDelivers t.trace = [p.payload]) := by
  cases h with
  | accepted p hok hdata horder => exact .inr ⟨rfl, rfl, p, hok, hdata, horder, by simp [htrace]⟩
  | sent => exact .inl ⟨sendPacket_expectedSeq s x, by cases hn : nothingOutstanding s <;> simp [htrace, hn]⟩
  | buffered => exact .inl ⟨rfl, by simp [htrace]⟩
  | repeated => exact .inl ⟨rfl, by simp [htrace]⟩
  | ackIgnored => exact .inl ⟨rfl, by simp [htrace]⟩
  | acknowledged p k _ _ _ hsent =>
    refine .inl ⟨acknowledgedState_expectedSeq _ k s, ?_⟩
    rw [acknowledgedState_trace hsent]
    cases (acknowledgedState (ackOperand p) k s).timerArmed <;> simp [htrace]
  | timedOut =>
    refine .inl ⟨onTimeout_expectedSeq s, ?_⟩
    rw [onTimeout_trace]
    split <;> simp [htrace]
  | reservedIgnored => exact .inl ⟨rfl, by simp [htrace]⟩

/-- Settles O49: the one effect that delivers is an RX of data in order. -/
theorem deliveryExactlyWhenExpectedAdvances : Obligations.DeliveryExactlyWhenExpectedAdvances := by
  intro s t hcommand hstep
  obtain ⟨op, x, rest, hinbox, heffect⟩ := commandEffect_of_nextIsCommand hcommand hstep
  obtain hnothing | ⟨hexp, rfl, p, hok, hdata, horder, hdelivered⟩ := delivered_of_commandEffect rfl heffect
  · exact .inl hnothing
  · exact .inr ⟨hexp, x, rest, p, hinbox, hok, hdata, horder, hdelivered⟩

/-! ### The timer actions of one command (R18, R20) -/

/-- The mirror bit after each effect is what the timer actions of its trace say. -/
theorem timerArmed_of_commandEffect {x : Bytes} {s t : State} {op : BitVec 2} (htrace : s.trace = [])
    (h : CommandEffect x s op t) :
    t.timerArmed = mirrorAfter (if op = 0b10#2 then false else s.timerArmed) t.trace := by
  cases h with
  | sent => cases hn : nothingOutstanding s <;> simp [htrace, hn, mirrorAfter]
  | buffered => simp [htrace, mirrorAfter]
  | accepted => simp [htrace, mirrorAfter]
  | repeated => simp [htrace, mirrorAfter]
  | ackIgnored => simp [htrace, mirrorAfter]
  | acknowledged p k _ _ _ hsent =>
    rw [acknowledgedState_trace hsent, mirrorAfter_append, mirrorAfter_timerAction]
  | timedOut =>
    by_cases hnone : s.base = s.nextSeq
    · rw [onTimeout_of_nothingOutstanding hnone, htrace]
      rfl
    · rw [onTimeout_of_outstanding hnone, mirrorAfter_append]
      rfl
  | reservedIgnored => simp [htrace, mirrorAfter]

/-- Settles O50, effect by effect. -/
theorem timerMirrorFollowsActions : Obligations.TimerMirrorFollowsActions := by
  intro s t op x rest hinbox hstep
  exact timerArmed_of_commandEffect (s := beginCommand rest s) rfl (commandEffect_of_step hinbox hstep)

/-- Each effect starts the timer with the configured interval, if at all. -/
theorem startTimer_of_commandEffect {x : Bytes} {s t : State} {op : BitVec 2} {d : Duration} (htrace : s.trace = [])
    (h : CommandEffect x s op t) (hstart : Action.startTimer d ∈ t.trace) : d = s.config.timerInterval := by
  cases h with
  | sent =>
    rw [sendPacket_trace, htrace] at hstart
    split at hstart
    · simpa using hstart
    · simp at hstart
  | buffered => simp [htrace] at hstart
  | accepted => simp [htrace] at hstart
  | repeated => simp [htrace] at hstart
  | ackIgnored => simp [htrace] at hstart
  | acknowledged p k _ _ _ hsent =>
    rw [acknowledgedState_trace hsent, htrace, List.nil_append, List.mem_append, List.mem_singleton] at hstart
    obtain hdrain | hclose := hstart
    · exact startTimer_mem_drainActions hdrain
    · split at hclose <;> cases hclose
      rfl
  | timedOut =>
    rw [onTimeout_trace, htrace] at hstart
    split at hstart
    · simp at hstart
    · simpa using hstart
  | reservedIgnored => simp [htrace] at hstart

/-- Settles O51, effect by effect. -/
theorem timerStartsCarryTheInterval : Obligations.TimerStartsCarryTheInterval := by
  intro s t d hcommand hstep hstart
  obtain ⟨op, x, rest, -, heffect⟩ := commandEffect_of_nextIsCommand hcommand hstep
  exact startTimer_of_commandEffect (s := beginCommand rest s) rfl heffect hstart

/-! ### What one command transmits (R166) -/

/-- Everything a command transmits is kept in the state it leaves: the ACK that is stored, or a packet in flight. -/
theorem transmitted_of_commandEffect {x : Bytes} {s t : State} {op : BitVec 2} {bytes : Bytes} (hinv : Inv s)
    (htrace : s.trace = []) (h : CommandEffect x s op t) (hbytes : bytes ∈ traceTransmits t.trace) :
    bytes = t.lastAckSent ∨ ∃ e ∈ t.inFlight, bytes = e.2 := by
  cases h with
  | sent =>
    refine .inr ⟨(s.nextSeq, dataPacket s.nextSeq x), ?_, ?_⟩
    · rw [sendPacket_inFlight_of_inv hinv]
      exact List.mem_append_right _ (List.mem_singleton_self _)
    · cases hn : nothingOutstanding s <;> simpa [htrace, hn] using hbytes
  | buffered => simp [htrace] at hbytes
  | accepted p => exact .inl (by simpa [htrace] using hbytes)
  | repeated => exact .inl (by simpa [htrace] using hbytes)
  | ackIgnored => simp [htrace] at hbytes
  | acknowledged p k _ _ _ hsent =>
    have hpackets : bytes ∈ (numberedPackets s.nextSeq (s.pending.take k)).map Prod.snd := by
      rw [acknowledgedState_trace hsent] at hbytes
      cases harmed : (acknowledgedState (ackOperand p) k s).timerArmed <;> simpa [htrace, harmed] using hbytes
    obtain ⟨e, he, rfl⟩ := List.mem_map.mp hpackets
    exact .inr ⟨e, by rw [acknowledgedState_inFlight_of_inv hinv]; exact List.mem_append_right _ he, rfl⟩
  | timedOut =>
    rw [onTimeout_trace, storedRange_eq _ _ _ hinv.keys] at hbytes
    have hpackets : bytes ∈ s.inFlight.map Prod.snd := by
      split at hbytes
      · simp [htrace] at hbytes
      · rw [traceTransmits_append, traceTransmits_append, traceTransmits_map_transmit, htrace] at hbytes
        simpa using hbytes
    obtain ⟨e, he, rfl⟩ := List.mem_map.mp hpackets
    exact .inr ⟨e, by rwa [onTimeout_inFlight], rfl⟩
  | reservedIgnored => simp [htrace] at hbytes

/-- No command writes the configuration (R211). -/
theorem config_of_commandEffect {x : Bytes} {s t : State} {op : BitVec 2} (h : CommandEffect x s op t) :
    t.config = s.config := by
  cases h <;> simp

/-- Settles O52: what is transmitted is kept in the next state, and that state meets the invariants I3, I6 and I7. -/
theorem transmittedBytesAreEncodedPackets : Obligations.TransmittedBytesAreEncodedPackets := by
  intro s t hinv hcommand hstep bytes hbytes
  obtain ⟨op, x, rest, hinbox, heffect⟩ := commandEffect_of_nextIsCommand hcommand hstep
  have hbegin := inv_beginCommand hinv hinbox
  have hnext := inv_of_commandEffect hbegin heffect
  obtain rfl | ⟨e, he, rfl⟩ := transmitted_of_commandEffect hbegin rfl heffect hbytes
  · exact .inr ⟨_, hnext.last_ack.2⟩
  · obtain ⟨payload, hfit, hpacket⟩ := hnext.packets e he
    obtain ⟨hlow, hhigh⟩ := key_bounds_of_inv hnext he
    have hbase := hnext.window.1
    have hnum := hnext.bounds.1
    rw [config_of_commandEffect heffect] at hfit
    exact .inl ⟨e.1, payload, hbase.trans hlow, hhigh.trans_le hnum, hfit, hpacket⟩

/-! ### How long a trace is (R165) -/

/-- The bounds of R165 by the code of the command. -/
theorem trace_length_of_commandEffect {x : Bytes} {s t : State} {op : BitVec 2} (hinv : Inv s) (htrace : s.trace = [])
    (h : CommandEffect x s op t) :
    t.trace.length ≤ if op = 0b00#2 then 2 else if op = 0b10#2 then s.config.windowSize + 1
      else s.config.windowSize + 2 := by
  cases h with
  | sent => cases hn : nothingOutstanding s <;> simp [htrace, hn]
  | buffered => simp [htrace]
  | accepted => simp [htrace]
  | repeated => simp [htrace]
  | ackIgnored => simp [htrace]
  | acknowledged p k _ _ hbase hsent hcount _ hnum =>
    have hdrain := drainActions_length_le s.config.timerInterval (decide (ackOperand p + 1 = s.nextSeq))
      ((numberedPackets s.nextSeq (s.pending.take k)).map Prod.snd)
    rw [List.length_map, numberedPackets_length, List.length_take_of_le hcount] at hdrain
    rw [acknowledgedState_trace hsent, htrace, List.nil_append, List.length_append, List.length_singleton,
      if_neg (by decide), if_neg (by decide)]
    omega
  | timedOut =>
    have hstored := congrArg List.length hinv.keys
    have hwindow := hinv.window
    rw [List.length_map, List.length_range'] at hstored
    rw [if_neg (by decide), if_pos rfl, onTimeout_trace, storedRange_eq _ _ _ hinv.keys, htrace]
    split
    · exact Nat.zero_le _
    · simp only [List.nil_append, List.length_append, List.length_map, List.length_singleton]
      omega
  | reservedIgnored => simp [htrace]

/-- Settles O53: the three bounds are one bound by the code. -/
theorem traceOfOneCommandIsBounded : Obligations.TraceOfOneCommandIsBounded := by
  intro s t rest hinv hstep
  have hbound {op : BitVec 2} {x : Bytes} (hinbox : s.inbox = .word (.command op x) :: rest) :=
    trace_length_of_commandEffect (inv_beginCommand hinv hinbox) rfl (commandEffect_of_step hinbox hstep)
  exact ⟨fun _ hinbox => hbound hinbox, fun _ hinbox => hbound hinbox, fun _ hinbox => hbound hinbox⟩

end Sys2Proof.Machine
end

section
/-! The checksum unit as arithmetic modulo `0xFFFF` (40_checksum.md R90 to R93). -/

namespace Sys2Proof.Machine

/-- Settles O3: FOLD fits 16 bits, keeps the residue modulo `0xFFFF` and answers 0 only for 0, which pins its value. -/
theorem foldHasClosedForm : Obligations.FoldHasClosedForm := by
  intro x
  have hlt := fold_lt x
  have hmod := fold_mod x
  have hzero := fold_eq_zero x
  split <;> omega

/-- An addend may be folded before it is added (R91). -/
theorem fold_fold_add (x y : Nat) : fold (fold x + y) = fold (x + y) := by
  have hmod := fold_mod x
  have hzero := fold_eq_zero x
  rw [fold_eq_fold]
  omega

/-- From an accumulator that is already folded, the incremental form folds the exact sum. -/
theorem foldl_fold_add (ws : List Nat) (x : Nat) :
    ws.foldl (fun acc w => fold (acc + w)) (fold x) = fold (x + ws.sum) := by
  induction ws generalizing x with
  | nil => simp
  | cons w ws ih => rw [List.foldl_cons, fold_fold_add, ih, List.sum_cons, Nat.add_assoc]

theorem foldIncremental_eq (ws : List Nat) : foldIncremental ws = fold ws.sum := by
  have hstart : fold 0 = 0 := (fold_eq_zero 0).mpr rfl
  rw [foldIncremental]
  conv_lhs => rw [← hstart]
  rw [foldl_fold_add, Nat.zero_add]

/-- Settles O5: folding on the way is folding at the end, and a folded accumulator has 16 bits. -/
theorem incrementalSumFoldsAlike : Obligations.IncrementalSumFoldsAlike := by
  refine fun ws => ⟨foldIncremental_eq ws, fun w hw => ?_⟩
  have hlt := fold_lt ws.sum
  rw [foldIncremental_eq]
  omega

/-- CHECKSUM is `0xFFFF` exactly for a zero sum (R92). -/
theorem checksum_eq_FFFF_iff (B : Bytes) : checksum B = 0xFFFF#16 ↔ wordSum B = 0 := by
  have hzero := fold_eq_zero (wordSum B)
  have hlt := fold_lt (wordSum B)
  rw [checksum_eq_iff, BitVec.toNat_ofNat]
  omega

/-- CHECKSUM is `0x0000` exactly for a positive multiple of `0xFFFF` (R92). -/
theorem checksum_eq_zero_iff (B : Bytes) : checksum B = 0#16 ↔ 0 < wordSum B ∧ wordSum B % 65535 = 0 := by
  have hzero := fold_eq_zero (wordSum B)
  have hlt := fold_lt (wordSum B)
  have hmod := fold_mod (wordSum B)
  rw [checksum_eq_iff, BitVec.toNat_ofNat]
  omega

/-- Settles O6, with a zero word sum read as zero bytes. -/
theorem checksumSpecialValues : Obligations.ChecksumSpecialValues :=
  fun B => ⟨(checksum_eq_FFFF_iff B).trans (wordSum_eq_zero B), checksum_eq_zero_iff B⟩

/-! ### The two accept tests (R93) -/

theorem wholePacketAccepts_iff (B : Bytes) :
    wholePacketAccepts B = true ↔ 0 < wordSum B ∧ wordSum B % 65535 = 0 :=
  beq_iff_eq.trans (checksum_eq_zero_iff B)

/-- VERIFY as arithmetic: the field is the complement of the folded sum of the zeroed bytes (R110). -/
theorem verify_iff_toNat (B : Bytes) :
    verify B = true ↔ 65535 - fold (wordSum (zeroChecksum B)) = (u16be B 8).toNat := by
  rw [verify_iff, checksum_eq_iff]

theorem u16be_eq_FFFF_iff (B : Bytes) (i : Nat) : u16be B i = 0xFFFF#16 ↔ (u16be B i).toNat = 65535 := by
  rw [← BitVec.toNat_inj]
  rfl

/-- Settles O11: the whole sum is that of the zeroed bytes and the field, which leaves one case in which the field may be
both 0 and `0xFFFF`. -/
theorem acceptTestsDifferInOneCase : Obligations.AcceptTestsDifferInOneCase := by
  intro B hlen T
  have hsum := wordSum_zeroChecksum B (by omega)
  have hzero := fold_eq_zero T
  have hlt := fold_lt T
  have hmod := fold_mod T
  have hfield := (u16be B 8).isLt
  rw [← Bool.not_eq_true, wholePacketAccepts_iff, verify_iff_toNat, u16be_eq_FFFF_iff, hsum]
  change (0 < T + _ ∧ (T + _) % 65535 = 0 ↔ 65535 - fold T = _ ∨ _) ∧ (_ → ¬ 65535 - fold T = _)
  omega

/-- What VERIFY accepts sums to the accept value (R93). -/
theorem wholePacketAccepts_of_verify {B : Bytes} (hlen : 15 ≤ B.length) (h : verify B = true) :
    wholePacketAccepts B = true :=
  (acceptTestsDifferInOneCase B hlen).1.mpr (.inl h)

end Sys2Proof.Machine
end

section
/-! Encoded packets (41_codec.md R113, R114): read back exactly, and not after any change of one bit. -/

namespace Sys2Proof.Machine

open Sys2Proof.Safety

/-! ### The packet that comes back (R113) -/

/-- The packet that ENCODE writes, as DECODE returns it. -/
def encodedPacket (seq ack : Word32) (k : Bool) (payload : Bytes) : Packet :=
  { sequenceNumber := seq, acknowledgmentNumber := ack, checksum := checksum (packetBytes seq ack 0 k payload),
    isAck := k, payloadLength := BitVec.ofNat 32 payload.length, payload := payload }

theorem packetFields_encodePacket (seq ack : Word32) (k : Bool) {payload : Bytes} (h : payload.length < fieldLimit) :
    packetFields (encodePacket seq ack k payload) = encodedPacket seq ack k payload :=
  packetFields_packetBytes seq ack _ k payload h

/-- DECODE undoes ENCODE. -/
theorem decodePacket_encodePacket (seq ack : Word32) (k : Bool) {payload : Bytes} (h : payload.length < fieldLimit) :
    decodePacket (encodePacket seq ack k payload) = .ok (encodedPacket seq ack k payload) := by
  have hwhole : isTruncated (encodePacket seq ack k payload) = false := isTruncated_packetBytes seq ack _ k payload h
  rw [decodePacket_of_not_truncated hwhole, verify_encodePacket seq ack k payload h, if_pos rfl,
    packetFields_encodePacket seq ack k h]

/-- Settles O9: the packet that comes back has the fields that went in. -/
theorem decodeOfEncodeRecoversPacket : Obligations.DecodeOfEncodeRecoversPacket := by
  intro seq ack k payload h
  refine ⟨_, decodePacket_encodePacket seq ack k h, rfl, rfl, rfl, ?_, rfl, ?_⟩
  · exact (BitVec.toNat_ofNat payload.length 32).trans (Nat.mod_eq_of_lt h)
  · rw [encodePacket, zeroChecksum_packetBytes, encodedPacket]

/-! ### The checksum field of the packets the block builds (R92, R93) -/

/-- The checksum field of an encoded packet. -/
theorem u16be_encodePacket (seq ack : Word32) (k : Bool) {payload : Bytes} (h : payload.length < fieldLimit) :
    u16be (encodePacket seq ack k payload) 8 = checksum (packetBytes seq ack 0 k payload) :=
  congrArg Packet.checksum (packetFields_encodePacket seq ack k h)

/-- Zero bytes read as zero at every offset. -/
theorem byteAt_of_zero {B : Bytes} (h : ∀ b ∈ B, b = 0#8) (i : Nat) : byteAt B i = 0#8 := by
  unfold byteAt
  rcases Nat.lt_or_ge i B.length with hi | hi
  · rw [List.getD_eq_getElem B 0 hi]
    exact h _ (List.getElem_mem hi)
  · exact List.getD_eq_default B 0 hi

/-- A packet of zero bytes only has sequence number 0 and is no ACK. -/
theorem fields_of_wordSum_zero {seq ack : Word32} {c : Word16} {k : Bool} {payload : Bytes}
    (hlen : payload.length < fieldLimit) (h : wordSum (packetBytes seq ack c k payload) = 0) : seq = 0 ∧ k = false := by
  have hbyte := byteAt_of_zero ((wordSum_eq_zero _).mp h)
  have hfields := packetFields_packetBytes seq ack c k payload hlen
  have hseq := congrArg Packet.sequenceNumber hfields
  have hkind := congrArg Packet.isAck hfields
  simp only [packetFields, u32be, hbyte] at hseq hkind
  exact ⟨hseq.symm, hkind.symm⟩

/-- The field of a packet with a sequence number, or of an ACK, is not `0xFFFF` (R92). -/
theorem u16be_encodePacket_ne_FFFF {seq ack : Word32} {k : Bool} {payload : Bytes} (hlen : payload.length < fieldLimit)
    (h : seq ≠ 0 ∨ k = true) : u16be (encodePacket seq ack k payload) 8 ≠ 0xFFFF#16 := by
  rw [u16be_encodePacket seq ack k hlen, Ne, checksum_eq_FFFF_iff]
  intro hsum
  obtain ⟨hseq, hkind⟩ := fields_of_wordSum_zero hlen hsum
  obtain h | h := h
  · exact h hseq
  · exact Bool.false_ne_true (hkind.symm.trans h)

/-- Settles O12: VERIFY accepts an encoded packet, and a number from 1 up or the `is_ack` byte makes its sum positive. -/
theorem encodedPacketsSumToAcceptValue : Obligations.EncodedPacketsSumToAcceptValue := by
  refine ⟨fun seq ack k payload h => ?_, fun seq payload hpos hseq h => ?_, fun a => ?_⟩
  · exact wholePacketAccepts_of_verify (by simp [headerLen]) (verify_encodePacket seq ack k payload h)
  · refine u16be_encodePacket_ne_FFFF h (.inl fun hzero => ?_)
    have hnat := congrArg BitVec.toNat hzero
    rw [BitVec.toNat_ofNat, Nat.mod_eq_of_lt hseq] at hnat
    exact Nat.ne_of_gt hpos hnat
  · exact u16be_encodePacket_ne_FFFF (by decide) (.inr rfl)

/-! ### One changed bit (R94, R114) -/

/-- Turning a 0 bit to 1 adds its weight. -/
theorem toNat_xor_twoPow_of_clear {w : Nat} {b : BitVec w} {j : Nat} (hj : j < w) (h : b.getLsbD j = false) :
    (b ^^^ BitVec.twoPow w j).toNat = b.toNat + 2 ^ j := by
  have hdisjoint : b &&& BitVec.twoPow w j = 0#w := by rw [BitVec.and_twoPow, h, if_neg Bool.false_ne_true]
  have hor : b ^^^ BitVec.twoPow w j = b ||| BitVec.twoPow w j := by
    ext k hk
    rw [BitVec.getElem_xor, BitVec.getElem_or, BitVec.getElem_twoPow]
    by_cases hkj : k = j
    · subst hkj
      rw [← BitVec.getLsbD_eq_getElem hk, h, Bool.false_xor, Bool.false_or]
    · rw [decide_eq_false hkj, Bool.xor_false, Bool.or_false]
  rw [hor, ← BitVec.add_eq_or_of_and_eq_zero _ _ hdisjoint, BitVec.toNat_add_of_and_eq_zero hdisjoint,
    BitVec.toNat_twoPow_of_lt hj]

/-- Turning a 1 bit to 0 takes its weight away: turning it back adds it. -/
theorem toNat_xor_twoPow_of_set {w : Nat} {b : BitVec w} {j : Nat} (hj : j < w) (h : b.getLsbD j = true) :
    (b ^^^ BitVec.twoPow w j).toNat + 2 ^ j = b.toNat := by
  have hclear : (b ^^^ BitVec.twoPow w j).getLsbD j = false := by simp [h, hj]
  rw [← toNat_xor_twoPow_of_clear hj hclear, BitVec.xor_assoc, BitVec.xor_self, BitVec.xor_zero]

/-- The byte that `flipBit` puts in. -/
def flippedByte (B : Bytes) (i j : Nat) : Byte := byteAt B i ^^^ BitVec.twoPow 8 j

theorem flipBit_eq_set (B : Bytes) (i j : Nat) : flipBit B i j = B.set i (flippedByte B i j) := by
  have hmask : BitVec.ofNat 8 (2 ^ j) = BitVec.twoPow 8 j := BitVec.eq_of_toNat_eq (by simp [BitVec.toNat_twoPow])
  rw [flipBit, flippedByte, hmask]

@[simp] theorem flipBit_length (B : Bytes) (i j : Nat) : (flipBit B i j).length = B.length := List.length_set

theorem byteAt_flipBit_same {B : Bytes} {i : Nat} (h : i < B.length) (j : Nat) :
    byteAt (flipBit B i j) i = flippedByte B i j := by
  rw [flipBit_eq_set, byteAt, List.getD_eq_getElem _ _ (by simpa using h), List.getElem_set_self]

theorem byteAt_flipBit_other {B : Bytes} {i k : Nat} (h : i ≠ k) (j : Nat) :
    byteAt (flipBit B i j) k = byteAt B k := by
  simp only [flipBit_eq_set, byteAt, List.getD_eq_getElem?_getD, List.getElem?_set_ne h]

/-- The weight of one bit of a byte is 1, 2, 4 and so on to 128. -/
theorem two_pow_cases {j : Nat} (h : j < 8) :
    2 ^ j = 1 ∨ 2 ^ j = 2 ∨ 2 ^ j = 4 ∨ 2 ^ j = 8 ∨ 2 ^ j = 16 ∨ 2 ^ j = 32 ∨ 2 ^ j = 64 ∨ 2 ^ j = 128 := by
  interval_cases j <;> simp

/-- One changed bit moves the word sum by its weight, which is no multiple of `0xFFFF`: the accept value is lost (R94). -/
theorem wholePacketAccepts_flipBit {B : Bytes} {i j : Nat} (hi : i < B.length) (hj : j < 8)
    (h : wholePacketAccepts B = true) : wholePacketAccepts (flipBit B i j) = false := by
  have hset := wordSum_set B i (flippedByte B i j) hi
  rw [← flipBit_eq_set] at hset
  change _ + (byteAt B i).toNat * _ = _ at hset
  have hweight := two_pow_cases hj
  rw [wholePacketAccepts_iff] at h
  rw [← Bool.not_eq_true, wholePacketAccepts_iff]
  cases hbit : (byteAt B i).getLsbD j
  · have hbyte : (flippedByte B i j).toNat = (byteAt B i).toNat + 2 ^ j := toNat_xor_twoPow_of_clear hj hbit
    split at hset <;> omega
  · have hbyte : (flippedByte B i j).toNat + 2 ^ j = (byteAt B i).toNat := toNat_xor_twoPow_of_set hj hbit
    split at hset <;> omega

/-- A changed bit makes its byte larger exactly when it was 0. -/
theorem byteAt_lt_flippedByte_iff (B : Bytes) (i : Nat) {j : Nat} (hj : j < 8) :
    (byteAt B i).toNat < (flippedByte B i j).toNat ↔ (byteAt B i).getLsbD j = false := by
  have hweight := Nat.two_pow_pos j
  cases hbit : (byteAt B i).getLsbD j
  · have hbyte : (flippedByte B i j).toNat = (byteAt B i).toNat + 2 ^ j := toNat_xor_twoPow_of_clear hj hbit
    exact iff_of_true (by omega) rfl
  · have hbyte : (flippedByte B i j).toNat + 2 ^ j = (byteAt B i).toNat := toNat_xor_twoPow_of_set hj hbit
    exact iff_of_false (by omega) Bool.false_ne_true.symm

/-- The declared length grows with any of its four bytes (R65). -/
theorem u32be_lt_flipBit_iff {B : Bytes} {i : Nat} (hi : i < B.length) (j : Nat) (hfield : 11 ≤ i ∧ i ≤ 14) :
    (u32be B 11).toNat < (u32be (flipBit B i j) 11).toNat ↔ (byteAt B i).toNat < (flippedByte B i j).toNat := by
  have hbyte (k : Nat) : byteAt (flipBit B i j) k = if i = k then flippedByte B i j else byteAt B k := by
    split
    next h => rw [← h, byteAt_flipBit_same hi]
    next h => exact byteAt_flipBit_other h j
  simp only [u32be_toNat, hbyte]
  obtain rfl | rfl | rfl | rfl : i = 11 ∨ i = 12 ∨ i = 13 ∨ i = 14 := by omega
  all_goals
    simp only [Nat.reduceAdd, Nat.reduceEqDiff, if_true, if_false]
    omega

/-- The declared length does not depend on the other bytes. -/
theorem u32be_flipBit_of_outside {B : Bytes} {i : Nat} (j : Nat) (h : ¬(11 ≤ i ∧ i ≤ 14)) :
    u32be (flipBit B i j) 11 = u32be B 11 := by
  have hother (k : Nat) (hk : 11 ≤ k ∧ k ≤ 14) : byteAt (flipBit B i j) k = byteAt B k :=
    byteAt_flipBit_other (by rintro rfl; exact h hk) j
  rw [u32be, hother 11 (by decide), hother 12 (by decide), hother 13 (by decide), hother 14 (by decide)]
  rfl

/-- A packet of the declared length becomes truncated exactly when a 0 of `payload_length` becomes 1. -/
theorem isTruncated_flipBit {B : Bytes} {i j : Nat} (hi : i < B.length) (hj : j < 8)
    (hlen : B.length = 15 + (u32be B 11).toNat) :
    isTruncated (flipBit B i j) = true ↔ 11 ≤ i ∧ i ≤ 14 ∧ (byteAt B i).getLsbD j = false := by
  rw [isTruncated_iff, flipBit_length, hlen, Nat.add_lt_add_iff_left, ← and_assoc]
  by_cases hfield : 11 ≤ i ∧ i ≤ 14
  · rw [u32be_lt_flipBit_iff hi j hfield, byteAt_lt_flippedByte_iff B i hj, and_iff_right hfield]
  · rw [u32be_flipBit_of_outside j hfield]
    exact iff_of_false (Nat.lt_irrefl _) fun h => hfield h.1

/-- The declared length of an encoded packet is that of its payload (R67). -/
theorem encodePacket_declared_length (seq ack : Word32) (k : Bool) {payload : Bytes} (h : payload.length < fieldLimit) :
    (encodePacket seq ack k payload).length = 15 + (u32be (encodePacket seq ack k payload) 11).toNat := by
  have hdeclared : u32be (encodePacket seq ack k payload) 11 = BitVec.ofNat 32 payload.length :=
    congrArg Packet.payloadLength (packetFields_encodePacket seq ack k h)
  rw [hdeclared, BitVec.toNat_ofNat, Nat.mod_eq_of_lt h, encodePacket_length]

/-- Settles O10: a changed bit loses the accept value, so VERIFY rejects, unless the declared length grew first. -/
theorem everySingleBitFlipIsRejected : Obligations.EverySingleBitFlipIsRejected := by
  intro seq ack k payload i j hlen B hi hj
  have htruncated := isTruncated_flipBit hi hj (encodePacket_declared_length seq ack k hlen)
  split
  next hgrows => exact decodePacket_of_truncated (htruncated.mpr hgrows)
  next hstays =>
    have hwhole : wholePacketAccepts B = true := encodedPacketsSumToAcceptValue.1 seq ack k payload hlen
    have hverify : verify (flipBit B i j) ≠ true := fun hv => by
      have haccepts := wholePacketAccepts_of_verify (by simp [B, headerLen]) hv
      rw [wholePacketAccepts_flipBit hi hj hwhole] at haccepts
      cases haccepts
    rw [decodePacket_of_not_truncated (Bool.eq_false_iff.mpr (mt htruncated.mp hstays)), if_neg hverify]

end Sys2Proof.Machine
end

section
/-! What the instructions leave unchanged, and when the sender refuses (10_state.md R32, 42_sender.md, 43_receiver.md). -/

namespace Sys2Proof.Machine

open Sys2Proof.Safety

/-! ### SUBMIT -/

/-- Settles O20: SUBMIT sends, which writes the slot of `next_seq` and no queue, or buffers, which writes only the
queue. -/
theorem submitFrame : Obligations.SubmitFrame := by
  intro payload s t hexec
  obtain ⟨-, ⟨-, -, rfl⟩ | ⟨-, -, rfl⟩⟩ := submit_next payload s t hexec
  · refine ⟨by simp, by simp, by simp, by simp, by simp, fun k hk => ?_, .inl (by simp), fun h => ?_⟩
    · rw [sendPacket_inFlight, storeRead_insert_other _ _ _ _ hk]
    · exact absurd (sendPacket_pending s payload) h
  · exact ⟨rfl, rfl, rfl, rfl, rfl, fun _ _ => rfl, .inr rfl, fun _ => ⟨rfl, rfl, rfl⟩⟩

/-- A payload longer than `MAX_PAYLOAD` does not wait (log entry 9). -/
theorem bufferPayload_of_tooLong {payload : Bytes} {s : State} (h : s.config.maxPayload < payload.length) :
    bufferPayload payload s = .refused .payloadTooLong :=
  if_pos h

/-- A finite queue that is full takes no payload (U4). -/
theorem bufferPayload_of_full {payload : Bytes} {s : State} (hfit : payload.length ≤ s.config.maxPayload)
    (hroom : pendingHasRoom s = false) : bufferPayload payload s = .refused .pendingOverflow := by
  rw [bufferPayload, if_neg (Nat.not_lt.mpr hfit), hroom, if_neg Bool.false_ne_true]

/-- Settles O19: with the window full SUBMIT only buffers, and the two tests of buffering refuse. -/
theorem submitStopsWhenItCannotBuffer : Obligations.SubmitStopsWhenItCannotBuffer := by
  intro payload s hfull
  rw [exec_submit, submit_of_windowFull payload hfull]
  refine ⟨bufferPayload_of_tooLong, fun depth hfit hdepth hlen => bufferPayload_of_full hfit ?_⟩
  rw [← Bool.not_eq_true, pendingHasRoom_iff]
  exact fun hroom => Nat.not_lt.mpr hlen (hroom depth hdepth)

/-! ### ON_ACK -/

/-- A refused drain refuses the whole ACK (log entry 15). -/
theorem onAck_of_drain_refused {a : Nat} {s : State} {r : Refusal} (hbase : s.base ≤ a) (hsent : a < s.nextSeq)
    (h : drain (advanceBase a s) = .refused r) : onAck a s = .refused r := by
  rw [onAck, if_pos ((acceptsAck_iff s a).mpr ⟨hbase, hsent⟩), h, andThen_refused]

/-- Settles O22: the drain runs past the last number, or reaches the payload that is too long. -/
theorem ackIsRefusedWhenItsDrainIs : Obligations.AckIsRefusedWhenItsDrainIs := by
  intro p s a hbase hsent drained
  have hlen : drained.length = drainCount a s := List.length_take_of_le (drainCount_le_length a s)
  rw [exec_pktAck, hlen]
  refine ⟨fun hsome hnum hfit => ?_, fun hnum hlong => ?_⟩
  · have hcount : drainCount a s ≠ 0 := fun hzero => hsome (List.eq_nil_of_length_eq_zero (hlen.trans hzero))
    exact onAck_of_drain_refused hbase hsent
      (drainQueue_exhausted s.pending (advanceBase a s) hsent (drainCount a s) rfl hcount hnum hfit)
  · exact onAck_of_drain_refused hbase hsent
      (drainQueue_tooLong s.pending (advanceBase a s) hsent (drainCount a s) rfl hnum hlong)

/-- What a number reads after an accepted ACK, unless it was given out by the drain (R132). -/
theorem storeRead_acknowledgedState {a n : Nat} {s : State} (hcount : n ≤ s.pending.length) {k : Nat}
    (hk : ¬(s.nextSeq ≤ k ∧ k < s.nextSeq + n)) :
    storeRead (acknowledgedState a n s).inFlight k =
      if s.base ≤ k ∧ k ≤ a then none else storeRead s.inFlight k := by
  rw [acknowledgedState, closeAck_inFlight, setPending_inFlight, sendAll_storeRead, advanceBase_inFlight,
    storeRead_removeRange]
  rw [List.length_take_of_le hcount, advanceBase_nextSeq]
  omega

/-- Settles O24: an ignored ACK changes nothing; an accepted one writes the slots it removes and those it gives out. -/
theorem ackFrame : Obligations.AckFrame := by
  intro p s t hexec
  obtain rfl | ⟨-, -, n, hcount, rfl⟩ := onAck_next_cases hexec
  · exact ⟨rfl, rfl, rfl, rfl, fun _ _ _ => rfl, 0, rfl, rfl⟩
  · have hnext := acknowledgedState_nextSeq (a := ackOperand p) hcount
    refine ⟨by simp, by simp, by simp, by simp, fun k hack hnew => ?_, n, by simp, hnext⟩
    change ¬(_ ∧ k < (acknowledgedState (ackOperand p) n s).nextSeq) at hnew
    rw [hnext] at hnew
    exact (storeRead_acknowledgedState hcount hnew).trans (if_neg hack)

/-! ### TIMEOUT -/

/-- Settles O25, by whether something is outstanding. -/
theorem timeoutResendsOrDoesNothing : Obligations.TimeoutResendsOrDoesNothing := by
  intro s
  rw [exec_timeout]
  exact ⟨fun h => by rw [onTimeout_of_outstanding h, storedRange], fun h => by rw [onTimeout_of_nothingOutstanding h]⟩

/-- A TIMEOUT delivers nothing (R163). -/
theorem traceDelivers_onTimeout (s : State) : traceDelivers (onTimeout s).trace = traceDelivers s.trace := by
  rw [onTimeout_trace]
  split <;> simp

/-- Settles O27, register by register. -/
theorem timeoutFrame : Obligations.TimeoutFrame := by
  intro s t hexec
  cases hexec
  refine ⟨?_, ?_, ?_, ?_, ?_, ?_, ?_, ?_, traceDelivers_onTimeout s⟩ <;> simp

/-! ### The packet rows and RX -/

/-- Settles O23: ON_ACK is given the acknowledgment number only, and `acceptData` reads the two fields of data. -/
theorem unreadPacketFieldsDoNotMatter : Obligations.UnreadPacketFieldsDoNotMatter := by
  refine fun p q s => ⟨fun hack => ?_, fun hseq hpayload => ?_⟩
  · rw [exec_pktAck, exec_pktAck, hack]
  · have hnumber : seqOperand p = seqOperand q := congrArg BitVec.toNat hseq
    rw [exec_pktData, exec_pktData]
    by_cases horder : seqOperand q = s.expectedSeq
    · rw [onData_of_in_order horder, onData_of_in_order (hnumber.trans horder), acceptData_eq, acceptData_eq, hseq,
        hpayload]
    · rw [onData_of_out_of_order horder, onData_of_out_of_order (hnumber ▸ horder)]

/-- The RX of a valid ACK is what the PKT_ACK row does. -/
theorem exec_rx_of_ack {bytes : Bytes} {p : Packet} (h : decodePacket bytes = .ok p) (hack : p.isAck = true)
    (s : State) : exec (.rx bytes) s = exec (.pktAck p) s := by
  rw [exec_rx, h, onPacket, if_pos hack, exec_pktAck, ackOperand]

/-- Settles O31. -/
theorem rxOfAckForwardsToSender : Obligations.RxOfAckForwardsToSender :=
  fun _ _ s hok hack => exec_rx_of_ack hok hack s

/-- No instruction touches the input queue (R160). -/
theorem exec_inbox {i : Instr} {s t : State} (h : exec i s = .next t) : t.inbox = s.inbox := by
  obtain rfl | ⟨p, rfl, -⟩ | ⟨rfl, -⟩ | ⟨payload, -, hsubmit⟩ | ⟨p, hack, -⟩ | ⟨rfl, -⟩ | ⟨b, -, rfl⟩ | ⟨b, -, rfl⟩ |
    ⟨d, -, rfl⟩ | ⟨-, rfl⟩ := exec_next i s t h
  · rfl
  · exact acceptData_inbox s p
  · exact repeatAck_inbox s
  · obtain ⟨-, ⟨-, -, rfl⟩ | ⟨-, -, rfl⟩⟩ := submit_next payload s t hsubmit
    · exact sendPacket_inbox s payload
    · exact setPending_inbox s _
  · obtain rfl | ⟨-, -, k, -, rfl⟩ := onAck_next_cases hack
    · rfl
    · exact acknowledgedState_inbox _ k s
  · exact onTimeout_inbox s
  · exact emit_inbox s _
  · exact emit_inbox s _
  · exact armTimer_inbox s d
  · exact disarmTimer_inbox s

/-- RX is refused only by ON_ACK, which a valid ACK is forwarded to (R150). -/
theorem execRx_refused {bytes : Bytes} {s : State} {r : Refusal} (h : execRx bytes s = .refused r) :
    ∃ p, decodePacket bytes = .ok p ∧ p.isAck = true ∧ onAck (ackOperand p) s = .refused r := by
  obtain ⟨e, -, hrx⟩ | ⟨p, -, -, hrx⟩ | ⟨p, hok, hack, hrx⟩ := execRx_cases bytes s <;> rw [hrx] at h
  · cases h
  · cases h
  · exact ⟨p, hok, hack, h⟩

/-- With numbers left for what waits, all of which fits, no ACK is refused (R124, R125). -/
theorem onAck_not_refused {s : State} (hspace : sequenceSpaceLeft s) (hfits : pendingFits s) (a : Nat) (r : Refusal) :
    onAck a s ≠ .refused r := by
  intro h
  obtain ⟨-, -, ⟨-, hnum⟩ | ⟨-, payload, hmem, hlong⟩⟩ := onAck_refused a s r h
  · exact Nat.not_lt.mpr hspace hnum
  · exact Nat.not_lt.mpr (hfits payload hmem) hlong

/-- Settles O32: there is no fault, and the one refusal of RX is excluded. -/
theorem rxCompletesOnEveryByteString : Obligations.RxCompletesOnEveryByteString := by
  intro bytes s hspace hfits
  obtain ⟨t, hnext⟩ | ⟨r, hrefused⟩ := next_or_refused (exec (.rx bytes) s)
  · exact ⟨t, hnext, exec_inbox hnext, exec_config hnext⟩
  · obtain ⟨p, -, -, hack⟩ := execRx_refused hrefused
    exact absurd hack (onAck_not_refused hspace hfits _ r)

/-- The two things the receiver does (R147 to R149). -/
theorem receiver_next_cases {s t : State}
    (h : (∃ p, exec (.pktData p) s = .next t) ∨
      ∃ bytes, exec (.rx bytes) s = .next t ∧ ∀ p, decodePacket bytes = .ok p → p.isAck = false) :
    (∃ p, t = acceptData p s) ∨ t = repeatAck s := by
  have hdata (p : Packet) (hp : exec (.pktData p) s = .next t) : (∃ p, t = acceptData p s) ∨ t = repeatAck s := by
    cases hp
    obtain ⟨-, hdo⟩ | ⟨-, hdo⟩ := onData_cases p s
    · exact .inl ⟨p, hdo⟩
    · exact .inr hdo
  obtain ⟨p, hp⟩ | ⟨bytes, hrx, hkind⟩ := h
  · exact hdata p hp
  · match hresult : decodePacket bytes with
    | .err e =>
      rw [exec_rx_of_corrupt hresult] at hrx
      cases hrx
      exact .inr rfl
    | .ok p =>
      rw [exec_rx_of_data hresult (hkind p hresult)] at hrx
      exact hdata p hrx

/-- Settles O33: of the receiver's two answers neither writes a register of the sender. -/
theorem receiverFrame : Obligations.ReceiverFrame := by
  intro s t h
  obtain ⟨p, rfl⟩ | rfl := receiver_next_cases h
  · refine ⟨rfl, rfl, rfl, rfl, rfl, rfl, rfl, fun hexp => ?_⟩
    rw [acceptData_expectedSeq] at hexp
    omega
  · exact ⟨rfl, rfl, rfl, rfl, rfl, rfl, rfl, fun _ => rfl⟩

/-- Settles O34: each action row is its one operation on the trace and the mirror bit. -/
theorem actionRowsEmitOneAction : Obligations.ActionRowsEmitOneAction :=
  fun _ _ _ => ⟨rfl, rfl, rfl, rfl⟩

/-! ### The store and the sequence registers -/

theorem storeWf_sendAll {s : State} (h : storeWf s.inFlight = true) (ps : List Bytes) :
    storeWf (sendAll ps s).inFlight = true := by
  induction ps generalizing s with
  | nil => exact h
  | cons p ps ih =>
    refine ih ?_
    rw [sendPacket_inFlight]
    exact storeWf_insert _ _ _ h

theorem storeWf_submit {payload : Bytes} {s t : State} (h : storeWf s.inFlight = true)
    (hsubmit : submit payload s = .next t) : storeWf t.inFlight = true := by
  obtain ⟨-, ⟨-, -, rfl⟩ | ⟨-, -, rfl⟩⟩ := submit_next payload s t hsubmit
  · exact storeWf_sendAll h [payload]
  · exact h

theorem storeWf_onAck {a : Nat} {s t : State} (h : storeWf s.inFlight = true) (hack : onAck a s = .next t) :
    storeWf t.inFlight = true := by
  obtain rfl | ⟨-, -, k, -, rfl⟩ := onAck_next_cases hack
  · exact h
  · rw [acknowledgedState, closeAck_inFlight, setPending_inFlight]
    exact storeWf_sendAll (s := advanceBase a s) (storeWf_removeRange _ _ _ h) _

/-- Settles O46: SUBMIT and ON_ACK write the store, by insertion and by removal of a range; nothing else does. -/
theorem storeStaysCanonical : Obligations.StoreStaysCanonical := by
  intro i s t hwf hexec
  obtain rfl | ⟨p, rfl, -⟩ | ⟨rfl, -⟩ | ⟨payload, -, hsubmit⟩ | ⟨p, hack, -⟩ | ⟨rfl, -⟩ | ⟨b, -, rfl⟩ | ⟨b, -, rfl⟩ |
    ⟨d, -, rfl⟩ | ⟨-, rfl⟩ := exec_next i s t hexec
  · exact hwf
  · exact hwf
  · exact hwf
  · exact storeWf_submit hwf hsubmit
  · exact storeWf_onAck hwf hack
  · rwa [onTimeout_inFlight]
  all_goals exact hwf

/-- How the sequence registers may move: `base` and `next_seq` up, `expected_seq` by at most 1 (R11, R13, R16). -/
def SequencesAdvance (s t : State) : Prop :=
  s.base ≤ t.base ∧ s.nextSeq ≤ t.nextSeq ∧ s.expectedSeq ≤ t.expectedSeq ∧ t.expectedSeq ≤ s.expectedSeq + 1

theorem sequencesAdvance_refl (s : State) : SequencesAdvance s s := ⟨le_rfl, le_rfl, le_rfl, Nat.le_succ _⟩

theorem sequencesAdvance_submit {payload : Bytes} {s t : State} (h : submit payload s = .next t) :
    SequencesAdvance s t := by
  obtain ⟨-, ⟨-, -, rfl⟩ | ⟨-, -, rfl⟩⟩ := submit_next payload s t h
  · simp [SequencesAdvance]
  · exact sequencesAdvance_refl s

theorem sequencesAdvance_onAck {a : Nat} {s t : State} (h : onAck a s = .next t) : SequencesAdvance s t := by
  obtain rfl | ⟨hbase, -, k, hcount, rfl⟩ := onAck_next_cases h
  · exact sequencesAdvance_refl t
  · rw [SequencesAdvance, acknowledgedState_base, acknowledgedState_nextSeq hcount, acknowledgedState_expectedSeq]
    omega

theorem sequencesAdvance_exec {i : Instr} {s t : State} (h : exec i s = .next t) : SequencesAdvance s t := by
  obtain rfl | ⟨p, rfl, -⟩ | ⟨rfl, -⟩ | ⟨payload, -, hsubmit⟩ | ⟨p, hack, -⟩ | ⟨rfl, -⟩ | ⟨b, -, rfl⟩ | ⟨b, -, rfl⟩ |
    ⟨d, -, rfl⟩ | ⟨-, rfl⟩ := exec_next i s t h
  · exact sequencesAdvance_refl t
  · exact ⟨le_rfl, le_rfl, Nat.le_succ _, le_rfl⟩
  · exact sequencesAdvance_refl s
  · exact sequencesAdvance_submit hsubmit
  · exact sequencesAdvance_onAck hack
  · simp [SequencesAdvance]
  all_goals exact sequencesAdvance_refl s

/-- Settles O48: SUBMIT counts `next_seq`, an accepted ACK moves `base` and `next_seq` up, accepted data counts
`expected_seq`, and nothing else writes them. -/
theorem sequenceRegistersNeverDecrease : Obligations.SequenceRegistersNeverDecrease :=
  fun _ _ _ hexec => sequencesAdvance_exec hexec

/-- Settles O47: a new packet goes to a number that no entry has, and only an accepted ACK removes, below the new
`base`. -/
theorem storedPacketsAreNeverModified : Obligations.StoredPacketsAreNeverModified := by
  intro s t hinv hcommand hstep k bytes hread
  obtain ⟨op, x, rest, -, heffect⟩ := commandEffect_of_nextIsCommand hcommand hstep
  have hbelow : k < s.nextSeq := (key_bounds_of_inv hinv (mem_of_storeRead _ _ _ hread)).2
  cases heffect with
  | sent =>
    rw [sendPacket_inFlight, beginCommand_nextSeq, storeRead_insert_other _ _ _ _ (Nat.ne_of_lt hbelow)]
    exact .inl hread
  | acknowledged p n _ _ _ _ hcount =>
    rw [storeRead_acknowledgedState hcount fun h => Nat.not_lt.mpr h.1 hbelow, acknowledgedState_base]
    split
    next hacked => exact .inr ⟨Nat.lt_succ_of_le hacked.2, rfl⟩
    next => exact .inl hread
  | timedOut =>
    rw [onTimeout_inFlight]
    exact .inl hread
  | buffered | accepted | repeated | ackIgnored | reservedIgnored => exact .inl hread

end Sys2Proof.Machine
end

section
/-! A link of two endpoints (44_endpoint.md R171 to R174): every event keeps the invariant of the link, and what follows
for every run. -/

namespace Sys2Proof.Machine

open Sys2Proof.Safety

/-! ### A command run at one side -/

/-- What running the command of code `op` with operand `q` makes of a side (R171). -/
structure CommandRun (op : BitVec 2) (q : Bytes) (x y : LinkSide) : Prop where
  exec : exec (decodeCommand op q) (beginCommand [] x.endpoint) = .next y.endpoint
  toPeer : y.toPeer = x.toPeer ++ traceTransmits y.endpoint.trace
  submitted : y.submitted = x.submitted ++ submittedBy (decodeCommand op q)
  delivered : y.delivered = x.delivered ++ traceDelivers y.endpoint.trace

theorem CommandRun.effect {op : BitVec 2} {q : Bytes} {x y : LinkSide} (h : CommandRun op q x y) :
    CommandEffect q (beginCommand [] x.endpoint) op y.endpoint :=
  commandEffect_of_exec h.exec

/-- A command that a side performs is run on its registers with an empty trace. -/
theorem commandRun_of_runCommand {op : BitVec 2} {q : Bytes} {x y : LinkSide} (hq : op = 0b10#2 → q = [])
    (h : runCommand (decodeCommand op q) x = some y) : CommandRun op q x y := by
  have hstep := step_command (s := { x.endpoint with inbox := [.word (.command op q)] }) rfl
  rw [runCommand, encode_decodeCommand op q hq, hstep] at h
  split at h
  next t ht =>
    cases h
    exact ⟨ht, rfl, rfl, rfl⟩
  next => cases h
  next => cases h

/-- A side is ready for its next command in a state that meets the invariants. -/
theorem inv_begin_of_sideInv {x : LinkSide} (h : SideInv x) : Inv (beginCommand [] x.endpoint) := { h.endpoint with }

/-! ### What a side sends -/

/-- The registers of a sender against the payloads submitted to it: the part of `SideInv` that commands change together. -/
structure SendsFrom (s : State) (submitted : List Bytes) : Prop where
  numbered : s.nextSeq - 1 ≤ submitted.length
  waiting : s.pending = submitted.drop (s.nextSeq - 1)
  inFlight : ∀ e ∈ s.inFlight, ∃ payload : Bytes, submitted[e.1 - 1]? = some payload ∧
    payload.length < fieldLimit ∧ e.2 = dataPacket e.1 payload

/-- What stands in a list stands there when more is appended. -/
theorem getElem?_append_of_some {l : List Bytes} {i : Nat} {q : Bytes} (h : l[i]? = some q) (l' : List Bytes) :
    (l ++ l')[i]? = some q := by
  obtain ⟨hlt, -⟩ := List.getElem?_eq_some_iff.mp h
  rw [List.getElem?_append_left hlt, h]

/-- Each numbered packet carries the payload at its place. -/
theorem getElem?_of_mem_numberedPackets {n : Nat} {ps : List Bytes} {e : Nat × Bytes} (h : e ∈ numberedPackets n ps) :
    ∃ j payload, ps[j]? = some payload ∧ e = (n + j, dataPacket (n + j) payload) := by
  induction ps generalizing n with
  | nil => exact absurd h List.not_mem_nil
  | cons p ps ih =>
    rw [numberedPackets, List.mem_cons] at h
    obtain rfl | h := h
    · exact ⟨0, p, rfl, rfl⟩
    · obtain ⟨j, payload, hj, rfl⟩ := ih h
      exact ⟨j + 1, payload, hj, by rw [Nat.add_right_comm, Nat.add_assoc]⟩

/-- With the window open nothing waits, so the payload of a SUBMIT is the next to be numbered (R121, R123). -/
theorem sendsFrom_sendPacket {s : State} {submitted : List Bytes} {payload : Bytes} (hinv : Inv s)
    (h : SendsFrom s submitted) (hfit : payload.length ≤ s.config.maxPayload)
    (hopen : s.nextSeq - s.base < s.config.windowSize) : SendsFrom (sendPacket payload s) (submitted ++ [payload]) := by
  have hnone := h.waiting.symm.trans (pending_nil_of_inv hinv hopen)
  have hlen : submitted.length = s.nextSeq - 1 := le_antisymm (List.drop_eq_nil_iff.mp hnone) h.numbered
  have hpos := hinv.window
  refine ⟨?_, ?_, fun e he => ?_⟩
  · rw [sendPacket_nextSeq, List.length_append, List.length_singleton]
    omega
  · rw [sendPacket_pending, sendPacket_nextSeq, pending_nil_of_inv hinv hopen, List.drop_of_length_le]
    rw [List.length_append, List.length_singleton]
    omega
  · rw [sendPacket_inFlight_of_inv hinv, List.mem_append, List.mem_singleton] at he
    obtain he | rfl := he
    · obtain ⟨q, hq, hrest⟩ := h.inFlight e he
      exact ⟨q, getElem?_append_of_some hq [payload], hrest⟩
    · exact ⟨payload, by rw [← hlen, List.getElem?_concat_length], hfit.trans_lt (maxPayload_lt_of_inv hinv), rfl⟩

/-- A drained payload gets the number of its place among the submitted (R133). -/
theorem sendsFrom_acknowledgedState {s : State} {submitted : List Bytes} {a k : Nat} (hinv : Inv s)
    (h : SendsFrom s submitted) (hcount : k ≤ s.pending.length) : SendsFrom (acknowledgedState a k s) submitted := by
  have hpos := hinv.window
  have hnext : (acknowledgedState a k s).nextSeq - 1 = s.nextSeq - 1 + k := by
    rw [acknowledgedState_nextSeq hcount]
    omega
  refine ⟨?_, ?_, fun e he => ?_⟩
  · have hlen := h.numbered
    rw [h.waiting, List.length_drop] at hcount
    rw [hnext]
    omega
  · rw [acknowledgedState_pending, hnext, h.waiting, List.drop_drop]
  · rw [acknowledgedState_inFlight_of_inv hinv, List.mem_append] at he
    obtain he | he := he
    · exact h.inFlight e (mem_of_mem_storeRemoveRange he)
    · obtain ⟨j, payload, hj, rfl⟩ := getElem?_of_mem_numberedPackets he
      have hwaiting : s.pending[j]? = some payload := by
        rw [List.getElem?_take] at hj
        split at hj
        · exact hj
        · cases hj
      have hfit := hinv.payloads payload (List.mem_of_getElem? hwaiting)
      rw [h.waiting, List.getElem?_drop, ← Nat.sub_add_comm (hpos.1.trans hpos.2.1)] at hwaiting
      exact ⟨payload, hwaiting, hfit.trans_lt (maxPayload_lt_of_inv hinv), rfl⟩

/-- Every effect of a command keeps the sender in step with what was submitted. -/
theorem sendsFrom_of_commandEffect {s t : State} {op : BitVec 2} {q : Bytes} {submitted : List Bytes} (hinv : Inv s)
    (h : SendsFrom s submitted) (heffect : CommandEffect q s op t) :
    SendsFrom t (submitted ++ submittedBy (decodeCommand op q)) := by
  have hsame : SendsFrom s (submitted ++ []) := by rwa [List.append_nil]
  cases heffect with
  | sent hfit hopen => exact sendsFrom_sendPacket hinv h hfit hopen
  | buffered =>
    refine ⟨?_, ?_, fun e he => ?_⟩
    · rw [List.length_append]
      exact Nat.le_add_right_of_le h.numbered
    · rw [setPending_pending, h.waiting]
      exact (List.drop_append_of_le_length h.numbered).symm
    · obtain ⟨payload, hp, hrest⟩ := h.inFlight e he
      exact ⟨payload, getElem?_append_of_some hp _, hrest⟩
  | acknowledged p k _ _ _ _ hcount => exact sendsFrom_acknowledgedState hinv hsame hcount
  | timedOut =>
    obtain ⟨hnum, hwait, hstore⟩ := hsame
    exact ⟨by rwa [onTimeout_nextSeq], by rwa [onTimeout_nextSeq, onTimeout_pending], by rwa [onTimeout_inFlight]⟩
  | accepted | repeated | ackIgnored | reservedIgnored => exact { hsame with }

/-- A side may have sent what it could have sent before, when its registers and its record have grown. -/
theorem mayHaveSent_mono {x y : LinkSide} {extra : List Bytes} (hnext : x.endpoint.nextSeq ≤ y.endpoint.nextSeq)
    (hexp : x.endpoint.expectedSeq ≤ y.endpoint.expectedSeq) (hsubmitted : y.submitted = x.submitted ++ extra)
    {bytes : Bytes} (h : mayHaveSent x bytes) : mayHaveSent y bytes := by
  obtain ⟨seq, payload, hpos, hseq, hp, hrest⟩ | ⟨a, ha, hbytes⟩ := h
  · exact .inl ⟨seq, payload, hpos, hseq.trans_le hnext, hsubmitted ▸ getElem?_append_of_some hp extra, hrest⟩
  · exact .inr ⟨a, ha.trans hexp, hbytes⟩

/-- The stored ACK and every packet in flight are things a side may have sent (R17, R22). -/
theorem mayHaveSent_of_kept {y : LinkSide} (hinv : Inv y.endpoint) (h : SendsFrom y.endpoint y.submitted)
    {bytes : Bytes} (hkept : bytes = y.endpoint.lastAckSent ∨ ∃ e ∈ y.endpoint.inFlight, bytes = e.2) : mayHaveSent y bytes := by
  obtain rfl | ⟨e, he, rfl⟩ := hkept
  · obtain ⟨hpos, hack⟩ := hinv.last_ack
    exact .inr ⟨_, (Nat.sub_add_cancel hpos).le, hack⟩
  · obtain ⟨payload, hp, hlen, hpacket⟩ := h.inFlight e he
    obtain ⟨hlow, hhigh⟩ := key_bounds_of_inv hinv he
    exact .inl ⟨e.1, payload, hinv.window.1.trans hlow, hhigh, hp, hlen, hpacket⟩

/-- A command keeps the invariant of the side that runs it. -/
theorem sideInv_of_commandRun {op : BitVec 2} {q : Bytes} {x y : LinkSide} (hside : SideInv x)
    (hrun : CommandRun op q x y) : SideInv y := by
  have hbegin := inv_begin_of_sideInv hside
  have hinv := inv_of_commandEffect hbegin hrun.effect
  have hsends : SendsFrom y.endpoint y.submitted := by
    rw [hrun.submitted]
    exact sendsFrom_of_commandEffect hbegin ⟨hside.numbered, hside.waiting, hside.inFlight⟩ hrun.effect
  obtain ⟨-, hnext, hexp, -⟩ := sequencesAdvance_exec hrun.exec
  refine ⟨{ hinv with inputs := rfl }, hsends.numbered, hsends.waiting, hsends.inFlight, fun bytes hbytes => ?_⟩
  rw [hrun.toPeer, List.mem_append] at hbytes
  obtain hbytes | hbytes := hbytes
  · exact mayHaveSent_mono hnext hexp hrun.submitted (hside.onItsWay bytes hbytes)
  · exact mayHaveSent_of_kept hinv hsends (transmitted_of_commandEffect hbegin rfl hrun.effect hbytes)

/-! ### What arrives -/

/-- What DECODE makes of an arriving byte string is nothing that the peer `x` has not sent: data with a number given out
and the payload submitted under it, or an ACK of a number accepted. -/
structure Genuine (x : LinkSide) (q : Bytes) : Prop where
  data : ∀ p, decodePacket q = .ok p → p.isAck = false →
    x.submitted[seqOperand p - 1]? = some p.payload ∧ seqOperand p < x.endpoint.nextSeq
  ack : ∀ p, decodePacket q = .ok p → p.isAck = true → ackOperand p + 1 ≤ x.endpoint.expectedSeq

/-- What is delivered unchanged is genuine: numbers below `2^32` come back from their fields (R113). -/
theorem genuine_of_mayHaveSent {x : LinkSide} (hside : SideInv x) {q : Bytes} (h : mayHaveSent x q) : Genuine x q := by
  obtain ⟨hnext, hexp⟩ := hside.endpoint.bounds
  obtain ⟨seq, payload, -, hseq, hp, hlen, rfl⟩ | ⟨a, ha, rfl⟩ := h
  · have hok := decodePacket_encodePacket (BitVec.ofNat 32 seq) 0 false hlen
    refine ⟨fun p hp' _ => ?_, fun p hp' hack => ?_⟩ <;> cases hok.symm.trans hp'
    · have hnumber : seqOperand (encodedPacket (BitVec.ofNat 32 seq) 0 false payload) = seq :=
        (BitVec.toNat_ofNat seq 32).trans (Nat.mod_eq_of_lt (hseq.trans_le hnext))
      rw [hnumber]
      exact ⟨hp, hseq⟩
    · cases hack
  · have hok := decodePacket_encodePacket 0 (BitVec.ofNat 32 a) true (payload := []) (by decide)
    refine ⟨fun p hp' hdata => ?_, fun p hp' _ => ?_⟩ <;> cases hok.symm.trans hp'
    · cases hdata
    · have hnumber : ackOperand (encodedPacket 0 (BitVec.ofNat 32 a) true []) = a :=
        (BitVec.toNat_ofNat a 32).trans (Nat.mod_eq_of_lt (ha.trans hexp))
      rw [hnumber]
      exact ha

/-- What DECODE rejects is no packet at all (U10). -/
theorem genuine_of_corrupt {q : Bytes} {e : CorruptionError} (h : decodePacket q = .err e) (x : LinkSide) :
    Genuine x q := by
  constructor <;> intro p hp <;> cases h.symm.trans hp

/-! ### Both directions -/

/-- `base` moves only to the number after that of a valid ACK (R132). -/
theorem base_of_commandEffect {s t : State} {op : BitVec 2} {q : Bytes} (h : CommandEffect q s op t) :
    t.base = s.base ∨ op = 0b01#2 ∧ ∃ p, decodePacket q = .ok p ∧ p.isAck = true ∧ t.base = ackOperand p + 1 := by
  cases h with
  | acknowledged p k hok hack => exact .inr ⟨rfl, p, hok, hack, acknowledgedState_base _ k s⟩
  | sent => exact .inl (sendPacket_base s q)
  | timedOut => exact .inl (onTimeout_base s)
  | buffered | accepted | repeated | ackIgnored | reservedIgnored => exact .inl rfl

/-- The side that runs a command as the sender of a direction. -/
theorem directionInv_of_sender_run {op : BitVec 2} {q : Bytes} {x y y' : LinkSide} (hside : SideInv y)
    (h : DirectionInv y x) (hrun : CommandRun op q y y') (hgenuine : op = 0b01#2 → Genuine x q) :
    DirectionInv y' x := by
  obtain ⟨-, hnext, -, -⟩ := sequencesAdvance_exec hrun.exec
  refine ⟨?_, ?_, h.accepted.trans hnext⟩
  · have hcounted : x.endpoint.expectedSeq - 1 ≤ y.submitted.length :=
      (Nat.sub_le_sub_right h.accepted 1).trans hside.numbered
    rw [hrun.submitted, List.take_append_of_le_length hcounted, h.delivered]
  · obtain hbase | ⟨rfl, p, hok, hack, hbase⟩ := base_of_commandEffect hrun.effect
    · exact hbase.trans_le h.acknowledged
    · exact hbase.trans_le ((hgenuine rfl).ack p hok hack)

/-- The side that runs a command as the receiver of a direction: it delivers the payload whose turn it is, or nothing. -/
theorem directionInv_of_receiver_run {op : BitVec 2} {q : Bytes} {x y y' : LinkSide} (hside : SideInv y)
    (h : DirectionInv x y) (hrun : CommandRun op q y y') (hgenuine : op = 0b01#2 → Genuine x q) :
    DirectionInv x y' := by
  obtain ⟨hexp, hnothing⟩ | ⟨hexp, rfl, p, hok, hdata, horder, hone⟩ := delivered_of_commandEffect rfl hrun.effect
  · change _ = y.endpoint.expectedSeq at hexp
    exact ⟨by rw [hrun.delivered, hnothing, List.append_nil, hexp, h.delivered], hexp ▸ h.acknowledged,
      hexp ▸ h.accepted⟩
  · obtain ⟨hpayload, hsent⟩ := (hgenuine rfl).data p hok hdata
    change _ = y.endpoint.expectedSeq + 1 at hexp
    change _ = y.endpoint.expectedSeq at horder
    rw [horder] at hpayload hsent
    have hturn : y.endpoint.expectedSeq = y.endpoint.expectedSeq - 1 + 1 :=
      (Nat.sub_add_cancel hside.endpoint.last_ack.1).symm
    refine ⟨?_, hexp ▸ Nat.le_succ_of_le h.acknowledged, hexp ▸ hsent⟩
    rw [hrun.delivered, hone, h.delivered, hexp, Nat.add_sub_cancel]
    conv_rhs => rw [hturn]
    rw [List.take_add_one, hpayload, Option.toList_some]

/-! ### Every event of a link -/

theorem linkInv_swap {x y : LinkSide} (h : LinkInv ⟨x, y⟩) : LinkInv ⟨y, x⟩ := ⟨h.sideB, h.sideA, h.bToA, h.aToB⟩

/-- A command run at one side keeps the invariant of the link, an RX if what arrives is genuine. -/
theorem linkInv_of_commandRun {op : BitVec 2} {q : Bytes} {x y y' : LinkSide} (h : LinkInv ⟨x, y⟩)
    (hrun : CommandRun op q y y') (hgenuine : op = 0b01#2 → Genuine x q) : LinkInv ⟨x, y'⟩ where
  sideA := h.sideA
  sideB := sideInv_of_commandRun h.sideB hrun
  aToB := directionInv_of_receiver_run h.sideB h.aToB hrun hgenuine
  bToA := directionInv_of_sender_run h.sideB h.bToA hrun hgenuine

/-- Taking the oldest byte string off the transport keeps the invariant. -/
theorem linkInv_of_taken {x y : LinkSide} {bytes : Bytes} {rest : List Bytes} (h : LinkInv ⟨x, y⟩)
    (hway : x.toPeer = bytes :: rest) : LinkInv ⟨{ x with toPeer := rest }, y⟩ where
  sideA := { h.sideA with
    onItsWay := fun b hb => h.sideA.onItsWay b (hway ▸ List.mem_cons_of_mem bytes hb) }
  sideB := h.sideB
  aToB := { h.aToB with }
  bToA := { h.bToA with }

/-- Carrying what is genuine from one side to the other keeps the invariant. -/
theorem linkInv_of_carry {change : Bytes → Option Bytes} {x y : LinkSide} {r : LinkSide × LinkSide}
    (h : LinkInv ⟨x, y⟩) (hgenuine : ∀ bytes ∈ x.toPeer, ∀ q, change bytes = some q → Genuine x q)
    (hcarry : carry change x y = some r) : LinkInv ⟨r.1, r.2⟩ := by
  unfold carry at hcarry
  split at hcarry
  next => cases hcarry
  next bytes rest hway =>
    have htaken := linkInv_of_taken h hway
    split at hcarry
    next =>
      cases hcarry
      exact htaken
    next q hchange =>
      obtain ⟨y', hrun, rfl⟩ := Option.map_eq_some_iff.mp hcarry
      have harrived := hgenuine bytes (hway ▸ List.mem_cons_self) q hchange
      exact linkInv_of_commandRun htaken (commandRun_of_runCommand (op := 0b01#2) (absurd · (by decide)) hrun)
        fun _ => { harrived with }

/-- Carrying toward either side, when all that `change` can make of what is on its way is genuine. -/
theorem linkInv_of_carryTo {side : EndpointId} {change : Bytes → Option Bytes} {l l' : Link} (h : LinkInv l)
    (hgenuine : ∀ x, SideInv x → ∀ bytes ∈ x.toPeer, ∀ q, change bytes = some q → Genuine x q)
    (hcarry : carryTo side change l = some l') : LinkInv l' := by
  cases side
  · obtain ⟨r, hr, rfl⟩ := Option.map_eq_some_iff.mp hcarry
    exact linkInv_swap (linkInv_of_carry (linkInv_swap h) (hgenuine l.b h.sideB) hr)
  · obtain ⟨r, hr, rfl⟩ := Option.map_eq_some_iff.mp hcarry
    exact linkInv_of_carry h (hgenuine l.a h.sideA) hr

/-- A command of the environment other than RX, at either side. -/
theorem linkInv_of_commandAt {side : EndpointId} {op : BitVec 2} {q : Bytes} {l l' : Link} (h : LinkInv l)
    (hq : op = 0b10#2 → q = []) (hop : op ≠ 0b01#2) (hcommand : commandAt side (decodeCommand op q) l = some l') :
    LinkInv l' := by
  cases side
  · obtain ⟨y, hy, rfl⟩ := Option.map_eq_some_iff.mp hcommand
    exact linkInv_swap (linkInv_of_commandRun (linkInv_swap h) (commandRun_of_runCommand hq hy) (absurd · hop))
  · obtain ⟨y, hy, rfl⟩ := Option.map_eq_some_iff.mp hcommand
    exact linkInv_of_commandRun h (commandRun_of_runCommand hq hy) (absurd · hop)

/-- A corruption that is detected arrives as bytes that DECODE rejects. -/
theorem decodePacket_of_detected {side : EndpointId} {bytes : Bytes}
    (h : detectedCorruption (.corrupt side bytes) = true) : ∃ e, decodePacket bytes = .err e := by
  unfold detectedCorruption at h
  cases hresult : decodePacket bytes with
  | ok p => simp [hresult] at h
  | err e => exact ⟨e, rfl⟩

/-- Settles O57, event by event: what arrives unchanged was sent, what arrives corrupt is no packet. -/
theorem linkStepKeepsInvariant : Obligations.LinkStepKeepsInvariant := by
  intro l l' e hinv hdetected hstep
  cases e with
  | submit side payload =>
    exact linkInv_of_commandAt (op := 0b00#2) (q := payload) hinv (absurd · (by decide)) (by decide) hstep
  | expire side =>
    rw [linkStep] at hstep
    split at hstep
    next => exact linkInv_of_commandAt (op := 0b10#2) (q := []) hinv (fun _ => rfl) (by decide) hstep
    next => cases hstep
  | arrive side =>
    refine linkInv_of_carryTo hinv (fun x hx bytes hbytes q hq => ?_) hstep
    cases hq
    exact genuine_of_mayHaveSent hx (hx.onItsWay bytes hbytes)
  | corrupt side bytes =>
    obtain ⟨err, herr⟩ := decodePacket_of_detected hdetected
    refine linkInv_of_carryTo hinv (fun x _ _ _ q hq => ?_) hstep
    cases hq
    exact genuine_of_corrupt herr x
  | lose side => exact linkInv_of_carryTo hinv (fun _ _ _ _ _ hq => absurd hq.symm (Option.some_ne_none _)) hstep

/-! ### From reset, and along every run -/

/-- A freshly constructed side of a legal configuration. -/
theorem sideInv_reset {cfg : Config} (h : configLegal cfg = true) :
    SideInv { endpoint := State.resetWith cfg, toPeer := [], submitted := [], delivered := [] } where
  endpoint := inv_resetWith h rfl
  numbered := le_rfl
  waiting := rfl
  inFlight := fun _ he => absurd he List.not_mem_nil
  onItsWay := fun _ hb => absurd hb List.not_mem_nil

/-- Settles O56: both sides are fresh, and both directions stand at number 1 with nothing submitted. -/
theorem linkResetMeetsInvariant : Obligations.LinkResetMeetsInvariant :=
  fun _ _ hA hB => ⟨sideInv_reset hA, sideInv_reset hB, ⟨rfl, le_rfl, le_rfl⟩, ⟨rfl, le_rfl, le_rfl⟩⟩

/-- The invariant holds along every run over a transport whose corruptions are detected. -/
theorem linkInv_of_linkRun {l l' : Link} {events : List LinkEvent} (h : LinkInv l)
    (hdetected : ∀ e ∈ events, detectedCorruption e = true) (hrun : linkRun l events = some l') : LinkInv l' := by
  induction events generalizing l with
  | nil =>
    cases hrun
    exact h
  | cons e events ih =>
    rw [List.forall_mem_cons] at hdetected
    rw [linkRun] at hrun
    split at hrun
    next => cases hrun
    next l₁ hstep => exact ih (linkStepKeepsInvariant l l₁ e h hdetected.1 hstep) hdetected.2 hrun

/-- Settles O58: along every run what was delivered is the front of what was submitted. -/
theorem linkDeliversInOrderExactlyOnce : Obligations.LinkDeliversInOrderExactlyOnce := by
  intro cfgA cfgB events l hA hB hdetected hrun
  have hinv := linkInv_of_linkRun (linkResetMeetsInvariant cfgA cfgB hA hB) hdetected hrun
  rw [hinv.aToB.delivered, hinv.bToA.delivered]
  exact ⟨List.take_prefix _ _, List.take_prefix _ _⟩

/-- With nothing in flight and nothing waiting at the sender, the receiver has counted every payload submitted (R174). -/
theorem delivered_of_sender_idle {x y : LinkSide} (hside : SideInv x) (h : DirectionInv x y)
    (hflight : x.endpoint.inFlight = []) (hwait : x.endpoint.pending = []) : y.delivered = x.submitted := by
  have hbase : x.endpoint.base = x.endpoint.nextSeq := (inFlight_eq_nil_iff_of_inv hside.endpoint).mp hflight
  have hexp : y.endpoint.expectedSeq = x.endpoint.nextSeq := le_antisymm h.accepted (hbase ▸ h.acknowledged)
  have hall := List.drop_eq_nil_iff.mp (hside.waiting.symm.trans hwait)
  rw [h.delivered, hexp, List.take_of_length_le hall]

/-- Settles O59: a quiescent link has both senders idle. -/
theorem quiescentLinkHasDeliveredEverything : Obligations.QuiescentLinkHasDeliveredEverything := by
  intro cfgA cfgB events l hA hB hdetected hrun hquiet
  have hinv := linkInv_of_linkRun (linkResetMeetsInvariant cfgA cfgB hA hB) hdetected hrun
  simp only [linkQuiescent, Bool.and_eq_true, List.isEmpty_iff] at hquiet
  obtain ⟨⟨⟨⟨⟨hflightA, hwaitA⟩, -⟩, hflightB⟩, hwaitB⟩, -⟩ := hquiet
  exact ⟨delivered_of_sender_idle hinv.sideA hinv.aToB hflightA hwaitA,
    delivered_of_sender_idle hinv.sideB hinv.bToA hflightB hwaitB⟩

end Sys2Proof.Machine
end

section
/-! Reset, the step and its refusals (44_endpoint.md R160, 70_reset_and_hazards.md, 60_exceptions.md). -/

namespace Sys2Proof.Machine

open Sys2Proof.Safety

/-! ### Reset (R31, R210 to R212) -/

/-- Settles O36: the list of R31 is the definition, and the listed bytes are `ACK(0)`. -/
theorem resetStateIsAsListed : Obligations.ResetStateIsAsListed :=
  fun _ => ⟨rfl, rfl, rfl, rfl, rfl, rfl, resetAck_eq_ackPacket_zero, rfl, rfl⟩

theorem applyReset_of_legal {cfg : Config} (hwindow : 1 ≤ cfg.windowSize) (hpayload : cfg.maxPayload < fieldLimit)
    (s : State) : applyReset cfg s = .next { State.resetWith cfg with inbox := s.inbox } := by
  rw [applyReset, if_neg (Nat.ne_of_gt hwindow), if_neg (Nat.not_le.mpr hpayload)]

/-- A reset is refused for one of its two arguments only (U8, log entry 4). -/
theorem applyReset_refused {cfg : Config} {s : State} {r : Refusal} (h : applyReset cfg s = .refused r) :
    (r = .windowSizeZero ∧ cfg.windowSize = 0) ∨ (r = .maxPayloadTooLarge ∧ fieldLimit ≤ cfg.maxPayload) := by
  unfold applyReset at h
  split_ifs at h with hwindow hpayload
  · cases h
    exact .inl ⟨rfl, hwindow⟩
  · cases h
    exact .inr ⟨rfl, hpayload⟩

/-- Settles O37: the step is `applyReset`, by its test of the window size. -/
theorem resetInputKeepsNothing : Obligations.ResetInputKeepsNothing := by
  intro s cfg rest hinbox
  rw [step_reset s cfg rest hinbox]
  exact ⟨fun hwindow hpayload => ⟨applyReset_of_legal hwindow hpayload _, rfl⟩, fun hzero => if_pos hzero⟩

/-! ### The step on a word (R160, R70) -/

theorem step_of_decode {s : State} {w : PortWord} {rest : List Input} {i : Instr} (hinbox : s.inbox = .word w :: rest)
    (hdecode : decode w = .ok i) : step s = exec i (beginCommand rest s) := by
  rw [step_word s w rest hinbox, hdecode]

/-- Settles O39. -/
theorem stepRunsDecodedInstruction : Obligations.StepRunsDecodedInstruction :=
  ⟨fun _ _ _ _ hinbox hdecode => step_of_decode hinbox hdecode, step_idle⟩

/-- A truncated packet word is answered as the corruption it is (R70, R147). -/
theorem step_of_truncated {s : State} {B : Bytes} {rest : List Input} (hinbox : s.inbox = .word (.packet B) :: rest)
    (h : isTruncated B = true) : step s = .next (takeCorruption .truncated (beginCommand rest s)) := by
  rw [step_word s _ rest hinbox, decode_packet_of_truncated h]

/-- Settles O40: the two code ports are total, and a packet word is read or truncated by the length test. -/
theorem everyWordIsRunOrAnsweredAsCorrupt : Obligations.EveryWordIsRunOrAnsweredAsCorrupt := by
  refine ⟨fun op x => ⟨_, rfl⟩, fun act x d => ⟨_, rfl⟩, fun B _ hlen => ⟨packetInstr (packetFields B), ?_⟩,
    fun B s rest hinbox hlen => ?_⟩
  · exact decode_packet_of_not_truncated (isTruncated_eq_false hlen)
  · exact step_of_truncated hinbox ((isTruncated_iff B).mpr (hlen.elim (Nat.lt_add_right _) id))

/-- A table word that decodes is a port word that decodes (log entry 8). -/
theorem tableWord_of_decodeTableWord {nbits w : Nat} {i : Instr} (h : decodeTableWord nbits w = some i) :
    ∃ word, tableWord nbits w = some word ∧ decode word = .ok i := by
  unfold decodeTableWord at h
  split at h
  next => cases h
  next word hword =>
    split at h
    next hdecode =>
      cases h
      exact ⟨word, hword, hdecode⟩
    next => cases h

/-- Settles O41: the word placed at the head of the queue is the one taken. -/
theorem fetchedTableWordRuns : Obligations.FetchedTableWordRuns := by
  intro s nbits w i htable
  obtain ⟨word, hword, hdecode⟩ := tableWord_of_decodeTableWord htable
  have hplaced : s.withFetchWord nbits w = placeWord word s := by rw [State.withFetchWord, hword]
  rw [hplaced, step_of_decode (placeWord_inbox s word) hdecode]
  rfl

/-! ### Refusals (R73, R124, R125, U4) -/

/-- SUBMIT is refused by SEND_NEW with the window open, else because it cannot buffer. -/
theorem submit_refused {payload : Bytes} {s : State} {r : Refusal} (h : submit payload s = .refused r) :
    (r = .sequenceNumbersExhausted ∧ fieldLimit ≤ s.nextSeq) ∨
    (r = .payloadTooLong ∧ s.config.maxPayload < payload.length) ∨
    (r = .pendingOverflow ∧ s.config.windowSize ≤ s.nextSeq - s.base ∧
      ∃ depth, s.config.pendingDepth = some depth ∧ depth ≤ s.pending.length) := by
  rcases Nat.lt_or_ge (s.nextSeq - s.base) s.config.windowSize with hopen | hfull
  · rw [submit_of_windowOpen payload hopen, sendNew_eq_refused] at h
    obtain ⟨hnum, rfl⟩ | ⟨-, hlong, rfl⟩ := h
    · exact .inl ⟨rfl, hnum⟩
    · exact .inr (.inl ⟨rfl, hlong⟩)
  · rw [submit_of_windowFull payload hfull] at h
    rcases Nat.lt_or_ge s.config.maxPayload payload.length with hlong | hfit
    · rw [bufferPayload_of_tooLong hlong] at h
      cases h
      exact .inr (.inl ⟨rfl, hlong⟩)
    · cases hroom : pendingHasRoom s
      · rw [bufferPayload_of_full hfit hroom] at h
        cases h
        rw [← Bool.not_eq_true, pendingHasRoom_iff] at hroom
        push Not at hroom
        exact .inr (.inr ⟨rfl, hfull, hroom⟩)
      · rw [bufferPayload_of_room hfit hroom] at h
        cases h

/-- The reserved code is refused under its own policy only (R73). -/
theorem execCmdReserved_refused {x : Bytes} {s : State} {r : Refusal} (h : execCmdReserved x s = .refused r) :
    s.config.reservedPolicy = .refuse ∧ r = .reservedCommand := by
  cases hpolicy : s.config.reservedPolicy
  · rw [execCmdReserved_of_refuse x hpolicy] at h
    cases h
    exact ⟨rfl, rfl⟩
  · rw [execCmdReserved_of_ignore x hpolicy] at h
    cases h

/-- An instruction that is refused is the reserved code, a SUBMIT, or an ACK, alone or in an RX. -/
theorem exec_refused {i : Instr} {s : State} {r : Refusal} (h : exec i s = .refused r) :
    (∃ x, i = .cmdReserved x ∧ s.config.reservedPolicy = .refuse ∧ r = .reservedCommand) ∨
    (∃ payload, i = .submit payload ∧ submit payload s = .refused r) ∨
    (∃ p, (i = .pktAck p ∨ ∃ bytes, i = .rx bytes ∧ decodePacket bytes = .ok p ∧ p.isAck = true) ∧
      onAck (ackOperand p) s = .refused r) := by
  cases i with
  | cmdReserved x => exact .inl ⟨x, rfl, execCmdReserved_refused (x := x) h⟩
  | submit payload => exact .inr (.inl ⟨payload, rfl, h⟩)
  | pktAck p => exact .inr (.inr ⟨p, .inl rfl, h⟩)
  | rx bytes =>
    obtain ⟨p, hok, hack, hrefused⟩ := execRx_refused h
    exact .inr (.inr ⟨p, .inr ⟨bytes, rfl, hok, hack⟩, hrefused⟩)
  | pktData | timeout | transmit | deliver | startTimer | stopTimer => cases h

/-- A step that is refused is a refused reset or a refused instruction. -/
theorem step_refused {s : State} {r : Refusal} (h : step s = .refused r) :
    (∃ cfg rest, s.inbox = .reset cfg :: rest ∧ applyReset cfg (beginCommand rest s) = .refused r) ∨
    (∃ w rest i, s.inbox = .word w :: rest ∧ decode w = .ok i ∧ exec i (beginCommand rest s) = .refused r) := by
  match hinbox : s.inbox with
  | [] =>
    rw [step_idle s hinbox] at h
    cases h
  | .reset cfg :: rest => exact .inl ⟨cfg, rest, rfl, (step_reset s cfg rest hinbox).symm.trans h⟩
  | .word w :: rest =>
    match hdecode : decode w with
    | .ok i => exact .inr ⟨w, rest, i, rfl, hdecode, (step_of_decode hinbox hdecode).symm.trans h⟩
    | .error .truncatedPacket =>
      rw [step_word s w rest hinbox, hdecode] at h
      cases h

/-- Settles O42: each refusal of reset, SUBMIT, ON_ACK and the reserved code has its own clause. -/
theorem stepIsRefusedOnlyByRule : Obligations.StepIsRefusedOnlyByRule := by
  intro s r hstep
  obtain ⟨cfg, rest, hinbox, hreset⟩ | ⟨w, rest, i, hinbox, hdecode, hexec⟩ := step_refused hstep
  · exact .inl ⟨cfg, rest, hinbox, applyReset_refused hreset⟩
  · refine .inr ⟨w, rest, i, hinbox, hdecode, ?_⟩
    obtain hreserved | ⟨payload, hi, hsubmit⟩ | ⟨p, hi, hack⟩ := exec_refused hexec
    · exact .inl hreserved
    · exact .inr (.inl ⟨payload, hi, submit_refused (s := beginCommand rest s) hsubmit⟩)
    · exact .inr (.inr ⟨p, hi, onAck_refused _ (beginCommand rest s) r hack⟩)

/-- Within the duties of R223 to R225, with nothing too long waiting, no instruction is refused. -/
theorem exec_not_refused_of_dutyKept {i : Instr} {s : State} (hfits : pendingFits s) (hduty : dutyKept i s)
    (r : Refusal) : exec i s ≠ .refused r := by
  intro h
  obtain ⟨x, rfl, hpolicy, -⟩ | ⟨payload, rfl, hsubmit⟩ | ⟨p, rfl | ⟨bytes, rfl, -, -⟩, hack⟩ := exec_refused h
  · cases hpolicy.symm.trans hduty
  · obtain ⟨hfit, hnum, hroom⟩ := hduty
    obtain ⟨-, hexhausted⟩ | ⟨-, hlong⟩ | ⟨-, -, depth, hdepth, hlen⟩ := submit_refused hsubmit
    · exact Nat.not_lt.mpr hexhausted hnum
    · exact Nat.not_lt.mpr hfit hlong
    · exact Nat.not_lt.mpr hlen ((pendingHasRoom_iff s).mp hroom depth hdepth)
  · exact hduty
  · exact onAck_not_refused hduty hfits _ r hack

/-- Settles O43: the word decodes, the instruction is not refused, and no instruction touches the queue. -/
theorem stepCompletesWithinDuties : Obligations.StepCompletesWithinDuties := by
  intro s w rest i hinv hinbox hdecode hduty
  rw [step_of_decode hinbox hdecode]
  have hready : dutyKept i (beginCommand rest s) := by cases i <;> exact hduty
  obtain ⟨t, hnext⟩ | ⟨r, hrefused⟩ := next_or_refused (exec i (beginCommand rest s))
  · exact ⟨t, hnext, exec_inbox hnext⟩
  · exact absurd hrefused (exec_not_refused_of_dutyKept (s := beginCommand rest s) hinv.payloads hready r)

end Sys2Proof.Machine
end

section
/-! What no rule reads: the identity of the endpoint (10_state.md R21) and the timer mirror (R18). Both are shown at once:
an endpoint under another identity and with another mirror bit takes the same branches. -/

namespace Sys2Proof.Machine

open Sys2Proof.Safety

/-! ### An endpoint in disguise -/

/-- `t` is `s` under the identity `e` and with any mirror bit, the same bit where `keepsBit` holds. -/
def Disguised (e : EndpointId) (keepsBit : Prop) (s t : State) : Prop :=
  ∃ c, (keepsBit → c = s.timerArmed) ∧ t = withEndpointId e (withTimerArmed c s)

/-- Two answers that stop alike, or go on to related states. -/
inductive Alike (R : State → State → Prop) : Result → Result → Prop where
  | next {s t : State} (h : R s t) : Alike R (.next s) (.next t)
  | refused (r : Refusal) : Alike R (.refused r) (.refused r)

section

variable {R : State → State → Prop}

/-- Two tests of one condition. -/
theorem alike_ite {P : Prop} [Decidable P] {a b a' b' : Result} (ha : Alike R a a') (hb : Alike R b b') :
    Alike R (if P then a else b) (if P then a' else b') := by
  split
  · exact ha
  · exact hb

/-- Two sequences of parts that answer alike. -/
theorem alike_andThen {r r' : Result} {f : State → Result} (h : Alike R r r')
    (hf : ∀ {s t}, R s t → Alike R (f s) (f t)) : Alike R (andThen r f) (andThen r' f) := by
  cases h with
  | next h => exact hf h
  | refused r => exact .refused r

end

/-! ### The operations do not see through it -/

section

variable {e : EndpointId} {keepsBit : Prop} {s t : State}

/-- SEND_NEW sets the bit or leaves it (R123). -/
theorem disguised_sendPacket (h : Disguised e keepsBit s t) (payload : Bytes) :
    Disguised e keepsBit (sendPacket payload s) (sendPacket payload t) := by
  obtain ⟨c, hc, rfl⟩ := h
  have houtstanding : nothingOutstanding (withEndpointId e (withTimerArmed c s)) = nothingOutstanding s := rfl
  refine ⟨nothingOutstanding s || c, fun hk => by rw [sendPacket_timerArmed, hc hk], ?_⟩
  rw [sendPacket, houtstanding, sendPacket]
  cases nothingOutstanding s <;> rfl

theorem disguised_setPending (h : Disguised e keepsBit s t) (q : List Bytes) :
    Disguised e keepsBit (setPending q s) (setPending q t) := by
  obtain ⟨c, hc, rfl⟩ := h
  exact ⟨c, hc, rfl⟩

theorem disguised_advanceBase (h : Disguised e keepsBit s t) (a : Nat) :
    Disguised e keepsBit (advanceBase a s) (advanceBase a t) := by
  obtain ⟨c, hc, rfl⟩ := h
  exact ⟨c, hc, rfl⟩

/-- The closing action of an ACK writes the bit, whatever it was (R134). -/
theorem disguised_closeAck (h : Disguised e keepsBit s t) : Disguised e keepsBit (closeAck s) (closeAck t) := by
  obtain ⟨c, -, rfl⟩ := h
  have houtstanding : nothingOutstanding (withEndpointId e (withTimerArmed c s)) = nothingOutstanding s := rfl
  refine ⟨(closeAck s).timerArmed, fun _ => rfl, ?_⟩
  rw [closeAck, houtstanding, closeAck]
  cases nothingOutstanding s <;> rfl

/-- TIMEOUT writes the bit, whatever it was (R136). -/
theorem disguised_onTimeout (h : Disguised e keepsBit s t) : Disguised e keepsBit (onTimeout s) (onTimeout t) := by
  obtain ⟨c, -, rfl⟩ := h
  refine ⟨(onTimeout s).timerArmed, fun _ => rfl, ?_⟩
  by_cases hnone : s.base = s.nextSeq
  · rw [onTimeout_of_nothingOutstanding hnone]
    exact onTimeout_of_nothingOutstanding (s := withEndpointId e (withTimerArmed c s)) hnone
  · rw [onTimeout_of_outstanding hnone]
    exact onTimeout_of_outstanding (s := withEndpointId e (withTimerArmed c s)) hnone

theorem disguised_onData (h : Disguised e keepsBit s t) (p : Packet) :
    Disguised e keepsBit (onData p s) (onData p t) := by
  obtain ⟨c, hc, rfl⟩ := h
  by_cases horder : seqOperand p = s.expectedSeq
  · rw [onData_of_in_order horder, onData_of_in_order (s := withEndpointId e (withTimerArmed c s)) horder]
    exact ⟨c, hc, rfl⟩
  · rw [onData_of_out_of_order horder, onData_of_out_of_order (s := withEndpointId e (withTimerArmed c s)) horder]
    exact ⟨c, hc, rfl⟩

theorem alike_sendNew (h : Disguised e keepsBit s t) (payload : Bytes) :
    Alike (Disguised e keepsBit) (sendNew payload s) (sendNew payload t) := by
  have hsent := disguised_sendPacket h payload
  obtain ⟨c, -, rfl⟩ := h
  exact alike_ite (.refused _) (alike_ite (.refused _) (.next hsent))

theorem alike_submit (h : Disguised e keepsBit s t) (payload : Bytes) :
    Alike (Disguised e keepsBit) (submit payload s) (submit payload t) := by
  have hsend := alike_sendNew h payload
  have hbuffer := disguised_setPending h (s.pending ++ [payload])
  obtain ⟨c, -, rfl⟩ := h
  exact alike_ite hsend (alike_ite (.refused _) (alike_ite (.next hbuffer) (.refused _)))

theorem alike_drainQueue (h : Disguised e keepsBit s t) (queue : List Bytes) :
    Alike (Disguised e keepsBit) (drainQueue queue s) (drainQueue queue t) := by
  induction queue generalizing s t with
  | nil => exact .next (disguised_setPending h [])
  | cons payload rest ih =>
    have hsent := alike_andThen (alike_sendNew (disguised_setPending h rest) payload) ih
    have hstop := disguised_setPending h (payload :: rest)
    obtain ⟨c, -, rfl⟩ := h
    exact alike_ite hsent (.next hstop)

theorem alike_onAck (h : Disguised e keepsBit s t) (a : Nat) :
    Alike (Disguised e keepsBit) (onAck a s) (onAck a t) := by
  have hdrain := alike_andThen (alike_drainQueue (disguised_advanceBase h a) s.pending)
    fun hu => .next (disguised_closeAck hu)
  have hsame := h
  obtain ⟨c, -, rfl⟩ := h
  exact alike_ite hdrain (.next hsame)

theorem alike_execRx (h : Disguised e keepsBit s t) (bytes : Bytes) :
    Alike (Disguised e keepsBit) (execRx bytes s) (execRx bytes t) := by
  unfold execRx
  cases decodePacket bytes with
  | err error =>
    obtain ⟨c, hc, rfl⟩ := h
    exact .next ⟨c, hc, rfl⟩
  | ok p => exact alike_ite (alike_onAck h _) (.next (disguised_onData h p))

theorem alike_execCmdReserved (h : Disguised e keepsBit s t) (x : Bytes) :
    Alike (Disguised e keepsBit) (execCmdReserved x s) (execCmdReserved x t) := by
  have hsame := h
  obtain ⟨c, -, rfl⟩ := h
  cases hpolicy : s.config.reservedPolicy
  · rw [execCmdReserved_of_refuse x hpolicy,
      execCmdReserved_of_refuse x (s := withEndpointId e (withTimerArmed c s)) hpolicy]
    exact .refused _
  · rw [execCmdReserved_of_ignore x hpolicy,
      execCmdReserved_of_ignore x (s := withEndpointId e (withTimerArmed c s)) hpolicy]
    exact .next hsame

/-- No instruction sees through the disguise, and none takes it off. -/
theorem alike_exec (h : Disguised e keepsBit s t) (i : Instr) :
    Alike (Disguised e keepsBit) (exec i s) (exec i t) := by
  cases i with
  | pktData p => exact .next (disguised_onData h p)
  | pktAck p => exact alike_onAck h _
  | submit payload => exact alike_submit h payload
  | rx bytes => exact alike_execRx h bytes
  | timeout => exact .next (disguised_onTimeout h)
  | cmdReserved x => exact alike_execCmdReserved h x
  | transmit | deliver =>
    obtain ⟨c, hc, rfl⟩ := h
    exact .next ⟨c, hc, rfl⟩
  | startTimer =>
    obtain ⟨c, -, rfl⟩ := h
    exact .next ⟨true, fun _ => rfl, rfl⟩
  | stopTimer =>
    obtain ⟨c, -, rfl⟩ := h
    exact .next ⟨false, fun _ => rfl, rfl⟩

end

/-! ### The two obligations -/

/-- Settles O54: another identity with the mirror bit kept. -/
theorem endpointIdIsNeverRead : Obligations.EndpointIdIsNeverRead := by
  intro i s e
  have hdisguised : Disguised e True s (withEndpointId e s) := ⟨s.timerArmed, fun _ => rfl, rfl⟩
  have halike := alike_exec hdisguised i
  generalize exec i s = r at halike ⊢
  generalize exec i (withEndpointId e s) = r' at halike ⊢
  cases halike with
  | next h =>
    obtain ⟨c, hc, rfl⟩ := h
    rw [hc trivial]
    rfl
  | refused => rfl

/-- Settles O55: the own identity, which no instruction changes, with another mirror bit. -/
theorem timerMirrorIsNeverRead : Obligations.TimerMirrorIsNeverRead := by
  intro i s b
  have hdisguised : Disguised s.config.endpointId False s (withTimerArmed b s) := ⟨b, False.elim, rfl⟩
  have halike := alike_exec hdisguised i
  generalize hexec : exec i s = r at halike ⊢
  generalize exec i (withTimerArmed b s) = r' at halike ⊢
  cases halike with
  | next h =>
    obtain ⟨c, -, rfl⟩ := h
    rw [← exec_config hexec]
    rfl
  | refused => rfl

end Sys2Proof.Machine
end
